-- ==== Sys2Proof/Word.lean ====
section
/-! DEFINITION. The word type of the block: the byte (rule R8). -/

namespace Sys2Proof

/-- A byte, `b[7:0]`, a u8 (00_scope.md rule R8). Also the type of the 8-bit command word (rule R39). -/
abbrev Byte := BitVec 8

end Sys2Proof
end

