-- ==== Sys2Proof/Syntax.lean ====
section
/-! DEFINITION. Message kinds, commands as the host issues them, and the instructions they stand for. -/

namespace Sys2Proof

/-- The three message kinds that name a variant (30_encoding.md rule R48). Their 2-bit values are in
`Sys2Proof.Machine.kindBits`; the reserved value 3 is no kind. -/
inductive MessageKind where
  | request
  | response
  | notification
  deriving DecidableEq, Repr

/-- The operand record `ops` as the host hands it over (30_encoding.md rule R41): numbers and sequences of numbers
that the decoder holds against the field types of that rule (00_scope.md rule R14: "well-typed operands").
All fields are there in every command, and a command reads only its own. -/
structure Operands where
  kind    : Nat
  len     : Nat
  h       : Nat
  b       : Nat
  id      : Nat
  subtype : Nat
  error   : Int
  event   : Nat
  payload : List Nat
  buf     : List Nat
  deriving DecidableEq, Repr

/-- The fields of the operand record whose type is bounded; `len` is not among them, since it is any natural
number (rule R41). Names the field an ill-typed operand stands in. -/
inductive OperandField where
  | kind
  | h
  | b
  | id
  | subtype
  | error
  | event
  | payload
  | buf
  deriving DecidableEq, Repr

/-- A command is a pair `(CMD, ops)` (rule R39). -/
structure Command where
  cmd : Byte
  ops : Operands
  deriving DecidableEq, Repr

/-- What the host can do to the block's state: issue a command (rule R39) or reset it (70_reset_and_hazards.md
rule R92: power-up or an external reset, which is not a command). -/
inductive HostEvent where
  | command (c : Command)
  | reset
  deriving DecidableEq, Repr

/-- One constructor per row of spec/opcode_table.json, with the operands of rule R42 in their types of rule R41.
`error` is an i8, kept as the integer it is; `Instr.wellFormed` bounds it. -/
inductive Instr where
  /-- `HDR.ENC`, 0x01, rule R61. -/
  | hdrEnc (kind : BitVec 2) (len : Nat)
  /-- `HDR.DEC`, 0x02, rule R62. -/
  | hdrDec (h : Byte)
  /-- `ENC.REQ`, 0x04, rule R69. -/
  | encReq (id subtype : Byte) (payload : List Byte)
  /-- `ENC.RSP`, 0x05, rule R70. -/
  | encRsp (id : Byte) (error : Int) (payload : List Byte)
  /-- `ENC.NTF`, 0x06, rule R71. -/
  | encNtf (id event : Byte) (payload : List Byte)
  /-- `DEC.REQ`, 0x08, rule R74. -/
  | decReq (buf : List Byte)
  /-- `DEC.RSP`, 0x09, rule R75. -/
  | decRsp (buf : List Byte)
  /-- `DEC.NTF`, 0x0A, rule R76. -/
  | decNtf (buf : List Byte)
  /-- `DEC.ANY`, 0x0B, rule R77. -/
  | decAny (buf : List Byte)
  /-- `CSUM.CLR`, 0x0C, rule R64. -/
  | csumClr
  /-- `CSUM.ADD`, 0x0D, rule R65. -/
  | csumAdd (b : Byte)
  /-- `CSUM.BUF`, 0x0E, rule R66. -/
  | csumBuf (buf : List Byte)
  /-- `ILLEGAL`: any of the 244 words outside the command map, rules R43 and R44. -/
  | illegal (cmd : Byte)
  deriving DecidableEq, Repr

/-- The two pseudo-commands, notation with no command word of their own (rule R60); expanded in
`Sys2Proof.Machine.expandPseudo`. -/
inductive Pseudo where
  | dec (buf : List Byte)
  | csumSeq (bs : List Byte)
  deriving DecidableEq, Repr

end Sys2Proof
end

