-- ==== Sys2Proof/Config.lean ====
section
/-! DEFINITION. The fixed constants (R5), the configuration parameters (R6) and their values for this hardware. -/

namespace Sys2Proof

/-- The configuration parameters of 00_scope.md rule R6. "A model takes them as arguments": the meanings do
(`Sys2Proof.Machine.execWith`), and `Sys2Proof.Machine.exec` is the meaning at this hardware's `Config.params`. -/
structure Params where
  /-- `LEN_BIAS(Request)`, an integer 0..63. -/
  biasRequest      : Fin 64
  /-- `LEN_BIAS(Response)`, an integer 0..63. -/
  biasResponse     : Fin 64
  /-- `LEN_BIAS(Notification)`, an integer 0..63. -/
  biasNotification : Fin 64
  /-- `PERMIT_KIND3`. -/
  permitKind3      : Bool
  /-- `LEN_W`, the width of the `len` operand in an instance. -/
  lenW             : Nat
  /-- `RX_CAP`, the longest `buf` operand an instance accepts. -/
  rxCap            : Nat
  deriving DecidableEq, Repr

/-- `LEN_BIAS(k)` (rule R6): length field minus payload byte count, for kind k. -/
def Params.lenBias (p : Params) : MessageKind → Nat
  | .request      => p.biasRequest
  | .response     => p.biasResponse
  | .notification => p.biasNotification

/-- The bounds rule R6 sets on the parameters of an instance: `LEN_W >= 7`, `RX_CAP >= 71`. -/
abbrev Params.Legal (p : Params) : Prop := 7 ≤ p.lenW ∧ 71 ≤ p.rxCap

namespace Config

/-- `LEN_MAX` (rule R5): the largest value of the 6-bit length field. -/
def lenMax : Nat := 63

/-- `FIXED_FIELDS` (rule R5): one-byte fields between header and payload. -/
def fixedFields : Nat := 2

/-- `RESERVED_LEN` (rule R5): reserved bytes after the payload. -/
def reservedLen : Nat := 4

/-- `CSUM_LEN` (rule R5): checksum bytes at the end of a frame. -/
def csumLen : Nat := 1

/-- `MIN_FRAME = 1 + FIXED_FIELDS + 0 + RESERVED_LEN + CSUM_LEN` (rule R7), 8 bytes for every kind. -/
def minFrame : Nat := 1 + fixedFields + 0 + reservedLen + csumLen

/-- `CAP(k) = 63 - LEN_BIAS(k)` (rule R7). -/
def cap (p : Params) (k : MessageKind) : Nat := lenMax - p.lenBias k

/-- `MAX_FRAME(k) = 71 - LEN_BIAS(k)` (rule R7). -/
def maxFrame (p : Params) (k : MessageKind) : Nat := minFrame + cap p k

/-- How far this hardware's `RX_CAP` lies above 71: OPEN in the spec (92_eei_decisions.md D19), so it has no body
and nothing can be proved of its value. Log entry 6. -/
opaque rxCapSlack : Nat

/-- This hardware's parameters (rule R6): `LEN_BIAS(k) = 0` (D8), `PERMIT_KIND3 = false` (D9), `LEN_W = 8` (D11),
`RX_CAP` any number from 71 on (D19). Log entry 5. -/
def params : Params where
  biasRequest := 0
  biasResponse := 0
  biasNotification := 0
  permitKind3 := false
  lenW := 8
  rxCap := 71 + rxCapSlack

end Config

end Sys2Proof
end

