-- ==== Sys2Proof/WellFormed.lean ====
section
/-! DEFINITION. Which terms of Instr stand for a command of the block: the checks the field types leave over. -/

namespace Sys2Proof

/-- The i8 range of 00_scope.md rule R8. -/
def isI8 (e : Int) : Bool := decide (-128 ≤ e) && decide (e ≤ 127)

/-- The illegal command words as 30_encoding.md rule R43 lists them: `0x00`, `0x03`, `0x07`, `0x0F` and
`0x10` to `0xFF`. -/
def isIllegalWord (cmd : Byte) : Bool :=
  cmd == 0x00#8 || cmd == 0x03#8 || cmd == 0x07#8 || cmd == 0x0F#8 || decide (0x10 ≤ cmd.toNat)

/-- A term of Instr is well-formed when its operands are well-typed (00_scope.md rule R14) and, for `ILLEGAL`, its
word is one of the 244 (30_encoding.md rule R43). The bit-vector types already bound every other operand. -/
def Instr.wellFormed : Instr → Bool
  | .hdrEnc _ _       => true
  | .hdrDec _         => true
  | .encReq _ _ _     => true
  | .encRsp _ error _ => isI8 error
  | .encNtf _ _ _     => true
  | .decReq _         => true
  | .decRsp _         => true
  | .decNtf _         => true
  | .decAny _         => true
  | .csumClr          => true
  | .csumAdd _        => true
  | .csumBuf _        => true
  | .illegal cmd      => isIllegalWord cmd

/-- The well-typed operand records of rule R14, as a whole: every field within its type of 30_encoding.md rule R41.
A command needs this only of the fields it reads. -/
abbrev Operands.WellTyped (o : Operands) : Prop :=
  o.kind < 4 ∧ o.h < 256 ∧ o.b < 256 ∧ o.id < 256 ∧ o.subtype < 256 ∧ (-128 ≤ o.error ∧ o.error ≤ 127) ∧
    o.event < 256 ∧ (∀ n ∈ o.payload, n < 256) ∧ (∀ n ∈ o.buf, n < 256)

end Sys2Proof
end

