-- ==== Sys2Proof/Decode.lean ====
section
/-! DEFINITION. The command decoder, total over every command word and operand record, and the encoder. -/

namespace Sys2Proof

/-- The operations of the command map, one per legal word (30_encoding.md rule R42). -/
inductive Op where
  | hdrEnc
  | hdrDec
  | encReq
  | encRsp
  | encNtf
  | decReq
  | decRsp
  | decNtf
  | decAny
  | csumClr
  | csumAdd
  | csumBuf
  deriving DecidableEq, Repr

/-- The command map of 30_encoding.md rule R42: `CMD` and the row it selects. -/
def commandMap : List (Byte × Op) :=
  [ (0x01#8, .hdrEnc), (0x02#8, .hdrDec),
    (0x04#8, .encReq), (0x05#8, .encRsp), (0x06#8, .encNtf),
    (0x08#8, .decReq), (0x09#8, .decRsp), (0x0A#8, .decNtf), (0x0B#8, .decAny),
    (0x0C#8, .csumClr), (0x0D#8, .csumAdd), (0x0E#8, .csumBuf) ]

/-- The `Z` field, `CMD[7:4]` (rule R40). -/
def fieldZ (cmd : Byte) : BitVec 4 := cmd.extractLsb' 4 4

/-- The `GRP` field, `CMD[3:2]` (rule R40). -/
def fieldGrp (cmd : Byte) : BitVec 2 := cmd.extractLsb' 2 2

/-- The `SEL` field, `CMD[1:0]` (rule R40). -/
def fieldSel (cmd : Byte) : BitVec 2 := cmd.extractLsb' 0 2

/-- The word selects the row whose CMD equals it on all 8 bits; `none` is an illegal word (rule R43). -/
def selectOp (cmd : Byte) : Option Op := commandMap.lookup cmd

/-- A u8 operand (rule R41): 0..255, or the field is ill-typed. -/
def readByte (f : OperandField) (n : Nat) : Except OperandField Byte :=
  if n < 256 then .ok (BitVec.ofNat 8 n) else .error f

/-- The 2-bit `kind` operand (rule R41): 0..3. -/
def readKind (n : Nat) : Except OperandField (BitVec 2) :=
  if n < 4 then .ok (BitVec.ofNat 2 n) else .error .kind

/-- The i8 `error` operand (rule R41): -128..127. -/
def readError (e : Int) : Except OperandField Int :=
  if isI8 e then .ok e else .error .error

/-- A byte-sequence operand (rule R41), of any length. -/
def readBytes (f : OperandField) : List Nat → Except OperandField (List Byte)
  | []      => .ok []
  | n :: ns =>
    match readByte f n, readBytes f ns with
    | .ok b, .ok bs => .ok (b :: bs)
    | _, _          => .error f

/-- A command reads only the fields its row names, in the row's order, and ignores the others (rules R41, R42).
An ill-typed field it reads makes the pair no command of the block (00_scope.md rule R14); log entry 3. -/
def readOperands (op : Op) (o : Operands) : Except OperandField Instr :=
  match op with
  | .hdrEnc  => do return .hdrEnc (← readKind o.kind) o.len
  | .hdrDec  => do return .hdrDec (← readByte .h o.h)
  | .encReq  => do return .encReq (← readByte .id o.id) (← readByte .subtype o.subtype) (← readBytes .payload o.payload)
  | .encRsp  => do return .encRsp (← readByte .id o.id) (← readError o.error) (← readBytes .payload o.payload)
  | .encNtf  => do return .encNtf (← readByte .id o.id) (← readByte .event o.event) (← readBytes .payload o.payload)
  | .decReq  => do return .decReq (← readBytes .buf o.buf)
  | .decRsp  => do return .decRsp (← readBytes .buf o.buf)
  | .decNtf  => do return .decNtf (← readBytes .buf o.buf)
  | .decAny  => do return .decAny (← readBytes .buf o.buf)
  | .csumClr => .ok .csumClr
  | .csumAdd => do return .csumAdd (← readByte .b o.b)
  | .csumBuf => do return .csumBuf (← readBytes .buf o.buf)

/-- Decoding is total (rule R43): every word is a row of the map or the illegal command, which reads no operand
(rule R44). The only rejection, by the field's name, is an ill-typed operand (00_scope.md rule R14). -/
def decode (c : Command) : Except OperandField Instr :=
  match selectOp c.cmd with
  | some op => readOperands op c.ops
  | none    => .ok (.illegal c.cmd)

/-- The operand record with every field zero or empty: what the encoder puts in the fields a command ignores. -/
def Operands.zero : Operands where
  kind := 0
  len := 0
  h := 0
  b := 0
  id := 0
  subtype := 0
  error := 0
  event := 0
  payload := []
  buf := []

/-- The operand values of a byte sequence. -/
def writeBytes (bs : List Byte) : List Nat := bs.map BitVec.toNat

/-- The command that stands for an instruction: its CMD byte of rule R42 and its operand record of rule R41. -/
def encode : Instr → Command
  | .hdrEnc kind len            => ⟨0x01#8, { Operands.zero with kind := kind.toNat, len := len }⟩
  | .hdrDec h                   => ⟨0x02#8, { Operands.zero with h := h.toNat }⟩
  | .encReq id subtype payload  =>
    ⟨0x04#8, { Operands.zero with id := id.toNat, subtype := subtype.toNat, payload := writeBytes payload }⟩
  | .encRsp id error payload    =>
    ⟨0x05#8, { Operands.zero with id := id.toNat, error := error, payload := writeBytes payload }⟩
  | .encNtf id event payload    =>
    ⟨0x06#8, { Operands.zero with id := id.toNat, event := event.toNat, payload := writeBytes payload }⟩
  | .decReq buf                 => ⟨0x08#8, { Operands.zero with buf := writeBytes buf }⟩
  | .decRsp buf                 => ⟨0x09#8, { Operands.zero with buf := writeBytes buf }⟩
  | .decNtf buf                 => ⟨0x0A#8, { Operands.zero with buf := writeBytes buf }⟩
  | .decAny buf                 => ⟨0x0B#8, { Operands.zero with buf := writeBytes buf }⟩
  | .csumClr                    => ⟨0x0C#8, Operands.zero⟩
  | .csumAdd b                  => ⟨0x0D#8, { Operands.zero with b := b.toNat }⟩
  | .csumBuf buf                => ⟨0x0E#8, { Operands.zero with buf := writeBytes buf }⟩
  | .illegal cmd                => ⟨cmd, Operands.zero⟩

/-- The command whose word is the `nbits` bits of `w` and whose operand record is all zeros: the instruction the
opcode table's numbering names (spec/opcode_table.json gives a row its 8-bit word and no operand bits). Log entry 14. -/
def tableCommand (nbits w : Nat) : Command := ⟨BitVec.ofNat 8 (w % 2 ^ nbits), Operands.zero⟩

/-- What the decoder reads from a table word; `none` for a word of more than the 8 bits of `CMD8` (rule R40). -/
def decodeTableWord (nbits w : Nat) : Option Instr :=
  if w % 2 ^ nbits < 256 then (decode (tableCommand nbits w)).toOption else none

end Sys2Proof
end

