-- ==== Sys2Proof/Machine/State.lean ====
section
/-! DEFINITION. The state of the block, what a step can stop with, and the state after reset. -/

namespace Sys2Proof.Machine

/-- The error names of 30_encoding.md rule R58; their numbers are in `ErrorCode.number`. -/
inductive ErrorCode where
  | invalidLength
  | payloadTooLarge
  | unknownMessageKind
  | truncatedFrame
  | lengthMismatch
  | checksumMismatch
  | kindMismatch
  | illegalCommand
  deriving DecidableEq, Repr

/-- The `info` of an error (10_state.md rule R18): `NO_INFO` or `CSUM_PAIR(expected, received)`. -/
inductive ErrInfo where
  | noInfo
  | csumPair (expected received : Byte)
  deriving DecidableEq, Repr

/-- An error as `raise E(info)` names it (00_scope.md rule R10). -/
structure CmdError where
  code : ErrorCode
  info : ErrInfo
  deriving DecidableEq, Repr

/-- The header's two fields (30_encoding.md rule R45). -/
structure Header where
  kind   : BitVec 2
  length : BitVec 6
  deriving DecidableEq, Repr

/-- The body of a decoded frame, one variant per kind (10_state.md rule R19). `error` is an i8. -/
inductive Body where
  | request (subtype : Byte) (payload : List Byte)
  | response (error : Int) (payload : List Byte)
  | notification (event : Byte) (payload : List Byte)
  deriving DecidableEq, Repr

/-- `DecodedFrame` (rule R19). It has no reserved field. -/
structure DecodedFrame where
  header   : Header
  id       : Byte
  body     : Body
  checksum : Byte
  deriving DecidableEq, Repr

/-- `Result`, the values of RES (rule R18). -/
inductive Result where
  | none
  | hdrByte (h : Byte)
  | hdrFields (kind : BitVec 2) (length : BitVec 6)
  | csum (v : Byte)
  | tx (frame : List Byte)
  | rx (frame : DecodedFrame)
  | err (code : ErrorCode) (info : ErrInfo)
  deriving DecidableEq, Repr

/-- The complete state is `(ACC, RES)` (10_state.md rule R27). `pending` is the model's own: the host's inputs to
come, oldest first, so that a step is a function of the state (log entry 1). -/
structure State where
  /-- `ACC`, the checksum accumulator (rule R15). -/
  acc     : Byte
  /-- `RES`, the result register (rule R17). -/
  res     : Result
  /-- The commands and reset events the host will issue, oldest first. -/
  pending : List HostEvent
  deriving DecidableEq, Repr

/-- The reasons a step stops with a fault. -/
inductive Fault where
  /-- Raised by step alone, for a command whose named operand field is not well-typed: such a pair "is not a command
  of this block and has no step" (00_scope.md rule R14; 93_implementation_defined.md I15, `stuck`). Safe. -/
  | illTypedOperand (field : OperandField)
  deriving DecidableEq, Repr

/-- The reasons a step is refused. -/
inductive Refusal where
  /-- An instruction with no meaning: answered by no arm of exec in this model. Safe. -/
  | notModelled (mnemonic : String)
  /-- Raised by step when the host has nothing pending: no command, no step (log entry 2). Safe. -/
  | noCommandIssued
  /-- Raised by `instanceStep` alone: a `buf` operand longer than RX_CAP, which an instance does not accept
  (00_scope.md rule R14; 93_implementation_defined.md I14, `stuck`). Safe. -/
  | beyondRxCap
  /-- Raised by `instanceStep` alone: a `len` operand that does not fit the instance's LEN_W bits
  (00_scope.md rule R6). Safe. -/
  | beyondLenW
  deriving DecidableEq, Repr

/-- After reset `ACC = 0x00` and `RES = NONE` (70_reset_and_hazards.md rule R92, 10_state.md rule R27); the host has
issued nothing. -/
def State.reset : State where
  acc := 0x00#8
  res := .none
  pending := []

end Sys2Proof.Machine
end

