-- ==== Sys2Proof/Machine/Flags.lean ====
section
/-! DEFINITION. The STATUS view, the only flags of the block (rules R22, R24), and the error numbers it shows. -/

namespace Sys2Proof.Machine

/-- The numbers of `STATUS.CODE` (30_encoding.md rule R58), 1 to 8. -/
def ErrorCode.number : ErrorCode → BitVec 4
  | .invalidLength      => 1#4
  | .payloadTooLarge    => 2#4
  | .unknownMessageKind => 3#4
  | .truncatedFrame     => 4#4
  | .lengthMismatch     => 5#4
  | .checksumMismatch   => 6#4
  | .kindMismatch       => 7#4
  | .illegalCommand     => 8#4

/-- `VALID`: 1 if `RES != NONE`, else 0 (10_state.md rule R22). -/
def validBit : Result → BitVec 1
  | .none => 0#1
  | _     => 1#1

/-- `CODE`: the number of the error in RES, 0 where RES is no error (rule R22). -/
def codeField : Result → BitVec 4
  | .err code _ => code.number
  | _           => 0#4

/-- `STATUS` as a view of a result: VALID in bit 7, bits 6:4 zero, CODE in bits 3:0 (rule R22). -/
def statusOf (r : Result) : Byte := validBit r ++ 0#3 ++ codeField r

/-- `STATUS` as the host reads it; nothing writes it (rule R22). -/
def State.status (s : State) : Byte := statusOf s.res

end Sys2Proof.Machine
end

