-- ==== Sys2Proof/Machine/Operands.lean ====
section
/-! DEFINITION. Reading operands and their representations: kinds, i8 bytes, runs of bytes. -/

namespace Sys2Proof.Machine

/-- `MessageKind` values (30_encoding.md rule R48): Request 0, Response 1, Notification 2. -/
def kindBits : MessageKind → BitVec 2
  | .request      => 0#2
  | .response     => 1#2
  | .notification => 2#2

/-- The kind a 2-bit tag names; the reserved value 3 names none (rules R48, R49). -/
def kindOfBits (k : BitVec 2) : Option MessageKind :=
  if k = 0#2 then some .request
  else if k = 1#2 then some .response
  else if k = 2#2 then some .notification
  else none

/-- `to_u8(e) = e mod 256` (00_scope.md rule R10): an i8 as its two's-complement byte. -/
def toU8 (e : Int) : Byte := BitVec.ofInt 8 e

/-- `to_i8(b) = b - 256 if b >= 128 else b` (rule R10): a u8 read as an i8. -/
def toI8 (b : Byte) : Int := if 128 ≤ b.toNat then (b.toNat : Int) - 256 else b.toNat

/-- `zeros(n)` (00_scope.md rule R9). -/
def zeros (n : Nat) : List Byte := List.replicate n 0x00#8

/-- `rep(n, b)` (30_encoding.md rule R59). -/
def rep (n : Nat) (b : Byte) : List Byte := List.replicate n b

/-- `MemRead(B, i, n)` is `B[i..i+n)` (rule R10). It takes the proof that the read is in bounds, "established before
the read" (20_memory.md rule R32), so no command can read outside its operand. -/
def memRead (B : List Byte) (i n : Nat) (_inBounds : i + n ≤ B.length) : List Byte := (B.drop i).take n

/-- `MemRead(B, i, 1)[0]`: the byte at index i, with the proof that it is in bounds (rules R10, R32). -/
def memReadByte (B : List Byte) (i : Nat) (inBounds : i + 1 ≤ B.length) : Byte := B[i]'(by omega)

/-- `MemWrite(O, v)` appends the bytes v to the output under construction (rule R10). -/
def memWrite (O v : List Byte) : List Byte := O ++ v

end Sys2Proof.Machine
end

