-- ==== Sys2Proof/Machine/Ops.lean ====
section
/-! DEFINITION. The operations the commands share: registers, raising an error, `sum8`, the header byte. -/

namespace Sys2Proof.Machine

/-- `ACC <- v` (00_scope.md rule R10). -/
def State.setAcc (v : Byte) (s : State) : State := { s with acc := v }

/-- `RES <- r` (rule R10). -/
def State.setRes (r : Result) (s : State) : State := { s with res := r }

/-- The host's inputs after one has been taken (the model's own field; log entry 1). -/
def State.setPending (es : List HostEvent) (s : State) : State := { s with pending := es }

/-- `raise E(info)`: `RES <- ERR(E, info)` and nothing else (00_scope.md rule R10, 60_exceptions.md rules R80, R84).
No state is saved, there is no vector and no return: this is the whole of taking an error. -/
def State.raise (e : CmdError) (s : State) : State := s.setRes (.err e.code e.info)

/-- The end of a command (rules R10, R17): it writes RES once, with its result or with the error it raised. -/
def finish {α : Type} (result : α → Result) (outcome : Except CmdError α) (s : State) :
    Host.Outcome State Fault Refusal :=
  match outcome with
  | .ok a    => .next (s.setRes (result a))
  | .error e => .next (s.raise e)

/-- The end of a checksum command: `ACC <- a` and `RES <- CSUM(a)` (41_checksum.md rules R64 to R66). -/
def finishCsum (a : Byte) (s : State) : Host.Outcome State Fault Refusal :=
  .next ((s.setAcc a).setRes (.csum a))

/-- The reset event: "sets the whole state to its reset value" (70_reset_and_hazards.md rule R92). What the host will
issue afterwards is the host's, not the block's, and stays (log entry 4). -/
def State.resetBlock (s : State) : State := State.reset.setPending s.pending

/-- `E(NO_INFO)`. -/
def ErrorCode.plain (code : ErrorCode) : CmdError := ⟨code, .noInfo⟩

/-- `sum8(B) = (B[0] + ... + B[len(B)-1]) mod 256`, the empty sum 0 (41_checksum.md rule R63): the exact sum of the
unsigned values, narrowed to 8 bits. -/
def sum8 (B : List Byte) : Byte := BitVec.ofNat 8 (B.map BitVec.toNat).sum

/-- Packing, `h = ((length & 0x3F) << 2) | (kind & 0x3)`, an 8-bit result (30_encoding.md rule R46). -/
def packHeader (kind : BitVec 2) (length : Nat) : Byte :=
  ((BitVec.ofNat 8 length &&& 0x3F#8) <<< 2) ||| (BitVec.setWidth 8 kind &&& 0x3#8)

/-- Unpacking, `kind = h[1:0] = h & 0x3` (rule R47). -/
def unpackKind (h : Byte) : BitVec 2 := BitVec.setWidth 2 (h &&& 0x3#8)

/-- Unpacking, `length = h[7:2] = (h >> 2) & 0x3F` (rule R47). -/
def unpackLength (h : Byte) : BitVec 6 := BitVec.setWidth 6 ((h >>> 2) &&& 0x3F#8)

end Sys2Proof.Machine
end

