-- ==== Sys2Proof/Machine/Checksum.lean ====
section
/-! DEFINITION. The checksum accumulator commands (41_checksum.md). They take no configuration parameter. -/

namespace Sys2Proof.Machine

/-- `CSUM.CLR` (rule R64): `ACC <- 0x00`, `RES <- CSUM(0x00)`. -/
def execCsumClr (s : State) : Host.Outcome State Fault Refusal := finishCsum 0x00#8 s

/-- `CSUM.ADD(b)` (rule R65): `a <- (ACC + b) mod 256`, the carry out discarded. -/
def execCsumAdd (b : Byte) (s : State) : Host.Outcome State Fault Refusal :=
  finishCsum (BitVec.ofNat 8 (s.acc.toNat + b.toNat)) s

/-- `CSUM.BUF(buf)` (rule R66): `a <- sum8(buf)`; ACC's old value is not used. -/
def execCsumBuf (buf : List Byte) (s : State) : Host.Outcome State Fault Refusal := finishCsum (sum8 buf) s

end Sys2Proof.Machine
end

