-- ==== Sys2Proof/Machine/Decoder.lean ====
section
/-! DEFINITION. The frame decoder commands (43_frame_decoder.md). -/

namespace Sys2Proof.Machine

/-- Step 5 of rule R73: the variant the decoded kind selects, its second fixed field read as that variant's type. -/
def bodyOf (k : MessageKind) (f2 : Byte) (payload : List Byte) : Body :=
  match k with
  | .request      => .request f2 payload
  | .response     => .response (toI8 f2) payload
  | .notification => .notification f2 payload

/-- Steps 3 to 5 of rule R73, once the header byte has named the kind k and agreed with the hint. The reserved bytes
are read only inside `sum8`. -/
def decodeBody (p : Params) (k : MessageKind) (B : List Byte) (hn : 8 ≤ B.length) : Except CmdError DecodedFrame :=
  let n := B.length
  let L := unpackLength (memReadByte B 0 (by omega))
  let P := n - Config.minFrame
  if L.toNat < p.lenBias k ∨ L.toNat - p.lenBias k ≠ P then .error ErrorCode.lengthMismatch.plain
  else
    let id := memReadByte B 1 (by omega)
    let f2 := memReadByte B 2 (by omega)
    let payload := memRead B 3 P (show 3 + (B.length - 8) ≤ B.length by omega)
    let rx := memReadByte B (n - 1) (show B.length - 1 + 1 ≤ B.length by omega)
    let c := sum8 (memRead B 0 (n - 1) (show 0 + (B.length - 1) ≤ B.length by omega))
    if rx ≠ c then .error ⟨.checksumMismatch, .csumPair c rx⟩
    else .ok { header := ⟨kindBits k, L⟩, id := id, body := bodyOf k f2 payload, checksum := rx }

/-- `DECODE(hint, B)` (rule R73), its checks in the order of rule R78. `hint` is `none` for `DEC.ANY`. -/
def decodeFrame (p : Params) (hint : Option MessageKind) (B : List Byte) : Except CmdError DecodedFrame :=
  if hn : 8 ≤ B.length then
    match kindOfBits (unpackKind (memReadByte B 0 (by omega))) with
    | none   => .error ErrorCode.unknownMessageKind.plain
    | some k =>
      if hint ≠ none ∧ hint ≠ some k then .error ErrorCode.kindMismatch.plain
      else decodeBody p k B hn
  else .error ErrorCode.truncatedFrame.plain

/-- A decoder command under the parameters `p`: `RES <- RX(fr)` (rule R73). -/
def decodeWith (p : Params) (hint : Option MessageKind) (buf : List Byte) (s : State) :
    Host.Outcome State Fault Refusal :=
  finish .rx (decodeFrame p hint buf) s

/-- `DEC.REQ` (rule R74): `DECODE(0, buf)`. -/
def execDecReq (buf : List Byte) (s : State) : Host.Outcome State Fault Refusal :=
  decodeWith Config.params (some .request) buf s

/-- `DEC.RSP` (rule R75): `DECODE(1, buf)`. -/
def execDecRsp (buf : List Byte) (s : State) : Host.Outcome State Fault Refusal :=
  decodeWith Config.params (some .response) buf s

/-- `DEC.NTF` (rule R76): `DECODE(2, buf)`. -/
def execDecNtf (buf : List Byte) (s : State) : Host.Outcome State Fault Refusal :=
  decodeWith Config.params (some .notification) buf s

/-- `DEC.ANY` (rule R77): `DECODE(NONE, buf)`. -/
def execDecAny (buf : List Byte) (s : State) : Host.Outcome State Fault Refusal :=
  decodeWith Config.params none buf s

end Sys2Proof.Machine
end

