-- ==== Sys2Proof/Machine/Encoder.lean ====
section
/-! DEFINITION. The frame encoder commands (42_frame_encoder.md). -/

namespace Sys2Proof.Machine

/-- The bytes of an encoded frame, in the order of `ENCODE`'s steps 1 to 4 (rule R68), for the length field `L`. -/
def frameBytes (k : MessageKind) (L : Nat) (id f2 : Byte) (payload : List Byte) : List Byte :=
  let O := memWrite [] [packHeader (kindBits k) L]
  let O := memWrite O [id, f2]
  let O := memWrite O payload
  let O := memWrite O (zeros Config.reservedLen)
  memWrite O [sum8 O]

/-- `ENCODE(k, id, f2, payload)` (rule R68): the length check comes before any byte is produced. -/
def encodeFrame (p : Params) (k : MessageKind) (id f2 : Byte) (payload : List Byte) : Except CmdError (List Byte) :=
  if Config.lenMax < payload.length + p.lenBias k then .error ErrorCode.payloadTooLarge.plain
  else .ok (frameBytes k (payload.length + p.lenBias k) id f2 payload)

/-- An encoder command under the parameters `p`: `RES <- TX(O)` (rule R68). -/
def encodeWith (p : Params) (k : MessageKind) (id f2 : Byte) (payload : List Byte) (s : State) :
    Host.Outcome State Fault Refusal :=
  finish .tx (encodeFrame p k id f2 payload) s

/-- `ENC.REQ` (rule R69): `ENCODE(0, id, subtype, payload)`. -/
def execEncReq (id subtype : Byte) (payload : List Byte) (s : State) : Host.Outcome State Fault Refusal :=
  encodeWith Config.params .request id subtype payload s

/-- `ENC.RSP` (rule R70): `ENCODE(1, id, to_u8(error), payload)`. -/
def execEncRsp (id : Byte) (error : Int) (payload : List Byte) (s : State) : Host.Outcome State Fault Refusal :=
  encodeWith Config.params .response id (toU8 error) payload s

/-- `ENC.NTF` (rule R71): `ENCODE(2, id, event, payload)`. An event is never rejected. -/
def execEncNtf (id event : Byte) (payload : List Byte) (s : State) : Host.Outcome State Fault Refusal :=
  encodeWith Config.params .notification id event payload s

end Sys2Proof.Machine
end

