-- ==== Sys2Proof/Machine/Header.lean ====
section
/-! DEFINITION. The header codec commands (40_header_codec.md). -/

namespace Sys2Proof.Machine

/-- `HDR.ENC(kind, len)`'s result or error, in the order of rule R61. LEN_BIAS is not applied here. -/
def packedHeader (p : Params) (kind : BitVec 2) (len : Nat) : Except CmdError Byte :=
  if Config.lenMax < len then .error ErrorCode.invalidLength.plain
  else if kind = 3#2 ∧ p.permitKind3 = false then .error ErrorCode.unknownMessageKind.plain
  else .ok (packHeader kind len)

/-- `HDR.DEC(h)`'s result or error (rule R62). -/
def unpackedHeader (p : Params) (h : Byte) : Except CmdError Header :=
  if unpackKind h = 3#2 ∧ p.permitKind3 = false then .error ErrorCode.unknownMessageKind.plain
  else .ok ⟨unpackKind h, unpackLength h⟩

/-- `HDR.ENC` under the parameters `p`: `RES <- HDR_BYTE(h)` (rule R61). -/
def hdrEncWith (p : Params) (kind : BitVec 2) (len : Nat) (s : State) : Host.Outcome State Fault Refusal :=
  finish .hdrByte (packedHeader p kind len) s

/-- `HDR.DEC` under the parameters `p`: `RES <- HDR_FIELDS(k, L)` (rule R62). -/
def hdrDecWith (p : Params) (h : Byte) (s : State) : Host.Outcome State Fault Refusal :=
  finish (fun f => .hdrFields f.kind f.length) (unpackedHeader p h) s

/-- `HDR.ENC` of this hardware (rule R61). -/
def execHdrEnc (kind : BitVec 2) (len : Nat) (s : State) : Host.Outcome State Fault Refusal :=
  hdrEncWith Config.params kind len s

/-- `HDR.DEC` of this hardware (rule R62). -/
def execHdrDec (h : Byte) (s : State) : Host.Outcome State Fault Refusal :=
  hdrDecWith Config.params h s

end Sys2Proof.Machine
end

