-- ==== Sys2Proof/Machine/Illegal.lean ====
section
/-! DEFINITION. The illegal command words (30_encoding.md rule R44). -/

namespace Sys2Proof.Machine

/-- `ILLEGAL(CMD)`: `raise IllegalCommand(NO_INFO)`, ACC unchanged (rule R44). Whatever the word, the effect is one. -/
def execIllegal (_cmd : Byte) (s : State) : Host.Outcome State Fault Refusal :=
  .next (s.raise ErrorCode.illegalCommand.plain)

end Sys2Proof.Machine
end

