-- ==== Sys2Proof/Machine/Dispatch.lean ====
section
/-! DEFINITION. One arm per instruction (30_encoding.md rule R42 and R44). -/

namespace Sys2Proof.Machine

def exec (i : Instr) (s : State) : Host.Outcome State Fault Refusal :=
  match i with
  | .hdrEnc kind len => Sys2Proof.Machine.execHdrEnc kind len s
  | .hdrDec h => Sys2Proof.Machine.execHdrDec h s
  | .encReq id subtype payload => Sys2Proof.Machine.execEncReq id subtype payload s
  | .encRsp id error payload => Sys2Proof.Machine.execEncRsp id error payload s
  | .encNtf id event payload => Sys2Proof.Machine.execEncNtf id event payload s
  | .decReq buf => Sys2Proof.Machine.execDecReq buf s
  | .decRsp buf => Sys2Proof.Machine.execDecRsp buf s
  | .decNtf buf => Sys2Proof.Machine.execDecNtf buf s
  | .decAny buf => Sys2Proof.Machine.execDecAny buf s
  | .csumClr => Sys2Proof.Machine.execCsumClr s
  | .csumAdd b => Sys2Proof.Machine.execCsumAdd b s
  | .csumBuf buf => Sys2Proof.Machine.execCsumBuf buf s
  | .illegal cmd => Sys2Proof.Machine.execIllegal cmd s

end Sys2Proof.Machine
end

