-- ==== Sys2Proof/Machine/Step.lean ====
section
/-! DEFINITION. One step of the block: the oldest input of the host takes effect. -/

namespace Sys2Proof.Machine

/-- The block executes one command at a time, in the order the host issues them, each as one atomic step (00_scope.md
rule R13, 20_memory.md rule R37); a reset event is a step of its own, between commands (70_reset_and_hazards.md rule
R92). The operands do not persist after the step (10_state.md rule R26). A command whose operands are not well-typed
has no step (rule R14), and with no input there is none (log entry 2). -/
def step (s : State) : Host.Outcome State Fault Refusal :=
  match s.pending with
  | []                  => .refused .noCommandIssued
  | .reset :: rest      => .next (s.setPending rest).resetBlock
  | .command c :: rest  =>
    match decode c with
    | .ok i        => exec i (s.setPending rest)
    | .error field => .fault (.illTypedOperand field)

/-- The host issues the table word `w` next, with an operand record of zeros, before what it has issued already.
The block fetches nothing (10_state.md rule R21): the next input of the host is where its next instruction stands.
Log entry 14. -/
def State.withFetchWord (s : State) (nbits w : Nat) : State :=
  s.setPending (.command (tableCommand nbits w) :: s.pending)

end Sys2Proof.Machine
end

