-- ==== Sys2Proof/Machine/Pseudo.lean ====
section
/-! DEFINITION. The pseudo-commands (rule R60), and the command that encodes a decoded frame again (R79 law 4). -/

namespace Sys2Proof.Machine

/-- `DEC buf=B` is `DEC.ANY buf=B`; `CSUM.SEQ b1, ..., bm` is `CSUM.CLR` and then one `CSUM.ADD` per byte
(30_encoding.md rule R60). -/
def expandPseudo : Pseudo → List Instr
  | .dec buf    => [.decAny buf]
  | .csumSeq bs => .csumClr :: bs.map .csumAdd

/-- The payload of a decoded frame's body (10_state.md rule R19). -/
def Body.payload : Body → List Byte
  | .request _ payload      => payload
  | .response _ payload     => payload
  | .notification _ payload => payload

/-- The kind a body's variant stands for (rule R19). -/
def Body.kind : Body → MessageKind
  | .request _ _      => .request
  | .response _ _     => .response
  | .notification _ _ => .notification

/-- The encoder command with a decoded frame's fields: "re-encoding `fr`" (43_frame_decoder.md rule R79 law 4). -/
def DecodedFrame.encoder (fr : DecodedFrame) : Instr :=
  match fr.body with
  | .request subtype payload    => .encReq fr.id subtype payload
  | .response error payload     => .encRsp fr.id error payload
  | .notification event payload => .encNtf fr.id event payload

end Sys2Proof.Machine
end

