-- ==== Sys2Proof/Machine/Assembly.lean ====
section
/-! DEFINITION. The listing syntax of 30_encoding.md rule R59, read into instructions. Notation only: no step uses it. -/

namespace Sys2Proof.Machine

/-- A listing's text, one character an entry. -/
abbrev Text := List Char

/-- Spaces and tabs separate, and mean nothing else (log entry 12). -/
def isBlank (c : Char) : Bool := c == ' ' || c == '\t'

/-- A text without the blanks around it. -/
def trim (t : Text) : Text := ((t.dropWhile isBlank).reverse.dropWhile isBlank).reverse

/-- "A line may end in a `;` comment" (rule R59). -/
def stripComment (t : Text) : Text := trim (t.takeWhile (· != ';'))

/-- Cuts a text at the commas that stand outside brackets and parentheses; `depth` counts those open and `part` is the
part so far, reversed. -/
def splitCommas (depth : Nat) (part : Text) : Text → List Text
  | []      => [trim part.reverse]
  | c :: cs =>
    if c == ',' && depth == 0 then trim part.reverse :: splitCommas 0 [] cs
    else if c == '[' || c == '(' then splitCommas (depth + 1) (c :: part) cs
    else if c == ']' || c == ')' then splitCommas (depth - 1) (c :: part) cs
    else splitCommas depth (c :: part) cs

/-- The parts of a comma-separated list; an empty text has none. -/
def commaParts (t : Text) : List Text := if trim t = [] then [] else splitCommas 0 [] t

/-- A digit of the given base, 10 or 16. -/
def digitValue (base : Nat) (c : Char) : Option Nat :=
  let n := c.toNat
  let v := if 48 ≤ n && n ≤ 57 then n - 48 else if 97 ≤ n && n ≤ 102 then n - 87
    else if 65 ≤ n && n ≤ 70 then n - 55 else base
  if v < base then some v else none

/-- The number a run of digits stands for, the digits before it read as `acc`. -/
def digits (base acc : Nat) : Text → Option Nat
  | []      => some acc
  | c :: cs =>
    match digitValue base c with
    | some v => digits base (acc * base + v) cs
    | none   => none

/-- "A byte value is written in hexadecimal `0x2A` or in decimal" (rule R59); `kind` and `len` too. -/
def number (t : Text) : Option Nat :=
  match t with
  | []                    => none
  | '0' :: 'x' :: c :: cs => digits 16 0 (c :: cs)
  | c :: cs               => digits 10 0 (c :: cs)

/-- "`error` is a signed decimal number, -128..127" (rule R59). -/
def signedNumber (t : Text) : Option Int :=
  match t with
  | []             => none
  | '-' :: c :: cs => (digits 10 0 (c :: cs)).map fun n => -(n : Int)
  | c :: cs        => (digits 10 0 (c :: cs)).map fun n => (n : Int)

/-- The numbers of a list of texts, if all are numbers. -/
def numbers : List Text → Option (List Nat)
  | []      => some []
  | t :: ts => do return (← number t) :: (← numbers ts)

/-- The text between an opening text and a closing character, where it has that shape. -/
def between (opening : Text) (closing : Char) (t : Text) : Option Text :=
  if opening.isPrefixOf t && t.getLast? == some closing && opening.length < t.length
  then some ((t.drop opening.length).dropLast) else none

/-- "A byte sequence is written in brackets"; "`zeros(n)` and `rep(n, 0xAB)` stand for n copies" (rule R59). -/
def sequence (t : Text) : Option (List Nat) :=
  match between ['['] ']' t, between ['z', 'e', 'r', 'o', 's', '('] ')' t, between ['r', 'e', 'p', '('] ')' t with
  | some inside, _, _ => numbers (commaParts inside)
  | _, some inside, _ => (number (trim inside)).map fun n => List.replicate n 0
  | _, _, some inside =>
    match numbers (commaParts inside) with
    | some [n, b] => some (List.replicate n b)
    | _           => none
  | _, _, _ => none

/-- The text of `name=value` after the name, where the operand is the named one. -/
def valueOf (name t : Text) : Option Text :=
  let before := trim (t.takeWhile (· != '='))
  let after := t.dropWhile (· != '=')
  if before = name && after.length != 0 then some (trim (after.drop 1)) else none

/-- The operand record that a row's operands write, "in the order of rule R42". -/
def operandsOf (op : Op) (parts : List Text) : Option Operands :=
  let o := Operands.zero
  match op, parts with
  | .hdrEnc, [k, l] => do
    return { o with kind := ← number (← valueOf ['k', 'i', 'n', 'd'] k), len := ← number (← valueOf ['l', 'e', 'n'] l) }
  | .hdrDec, [h] => do return { o with h := ← number (← valueOf ['h'] h) }
  | .encReq, [i, f, p] => do
    return { o with
      id := ← number (← valueOf ['i', 'd'] i)
      subtype := ← number (← valueOf ['s', 'u', 'b', 't', 'y', 'p', 'e'] f)
      payload := ← sequence (← valueOf ['p', 'a', 'y', 'l', 'o', 'a', 'd'] p) }
  | .encRsp, [i, f, p] => do
    return { o with
      id := ← number (← valueOf ['i', 'd'] i)
      error := ← signedNumber (← valueOf ['e', 'r', 'r', 'o', 'r'] f)
      payload := ← sequence (← valueOf ['p', 'a', 'y', 'l', 'o', 'a', 'd'] p) }
  | .encNtf, [i, f, p] => do
    return { o with
      id := ← number (← valueOf ['i', 'd'] i)
      event := ← number (← valueOf ['e', 'v', 'e', 'n', 't'] f)
      payload := ← sequence (← valueOf ['p', 'a', 'y', 'l', 'o', 'a', 'd'] p) }
  | .decReq, [b] => do return { o with buf := ← sequence (← valueOf ['b', 'u', 'f'] b) }
  | .decRsp, [b] => do return { o with buf := ← sequence (← valueOf ['b', 'u', 'f'] b) }
  | .decNtf, [b] => do return { o with buf := ← sequence (← valueOf ['b', 'u', 'f'] b) }
  | .decAny, [b] => do return { o with buf := ← sequence (← valueOf ['b', 'u', 'f'] b) }
  | .csumClr, [] => some o
  | .csumAdd, [b] => do return { o with b := ← number (← valueOf ['b'] b) }
  | .csumBuf, [b] => do return { o with buf := ← sequence (← valueOf ['b', 'u', 'f'] b) }
  | _, _ => none

/-- The mnemonics of the command map (rule R42). -/
def opMnemonics : List (Text × Op) :=
  [ (['H', 'D', 'R', '.', 'E', 'N', 'C'], .hdrEnc), (['H', 'D', 'R', '.', 'D', 'E', 'C'], .hdrDec),
    (['E', 'N', 'C', '.', 'R', 'E', 'Q'], .encReq), (['E', 'N', 'C', '.', 'R', 'S', 'P'], .encRsp),
    (['E', 'N', 'C', '.', 'N', 'T', 'F'], .encNtf),
    (['D', 'E', 'C', '.', 'R', 'E', 'Q'], .decReq), (['D', 'E', 'C', '.', 'R', 'S', 'P'], .decRsp),
    (['D', 'E', 'C', '.', 'N', 'T', 'F'], .decNtf), (['D', 'E', 'C', '.', 'A', 'N', 'Y'], .decAny),
    (['C', 'S', 'U', 'M', '.', 'C', 'L', 'R'], .csumClr), (['C', 'S', 'U', 'M', '.', 'A', 'D', 'D'], .csumAdd),
    (['C', 'S', 'U', 'M', '.', 'B', 'U', 'F'], .csumBuf) ]

/-- The pseudo-command a line writes (rule R60): `DEC buf=B` or `CSUM.SEQ b1, ..., bm`. -/
def pseudoOf (mnemonic : Text) (parts : List Text) : Option Pseudo :=
  if mnemonic = ['D', 'E', 'C'] then
    match parts with
    | [b] => do
      let ns ← sequence (← valueOf ['b', 'u', 'f'] b)
      return .dec (← (readBytes .buf ns).toOption)
    | _   => none
  else if mnemonic = ['C', 'S', 'U', 'M', '.', 'S', 'E', 'Q'] then do
    let ns ← numbers parts
    return .csumSeq (← (readBytes .b ns).toOption)
  else none

/-- The instructions a line of a listing stands for: none for an empty line, one for a command, the expansion for a
pseudo-command (rules R59, R60). A line that is none of these, or whose operands are not well-typed, is no listing. -/
def assembleLine (line : Text) : Option (List Instr) :=
  let t := stripComment line
  let mnemonic := t.takeWhile fun c => !isBlank c
  let parts := commaParts (trim (t.dropWhile fun c => !isBlank c))
  if t = [] then some []
  else
    match opMnemonics.lookup mnemonic with
    | some op => do
      let o ← operandsOf op parts
      let i ← (readOperands op o).toOption
      return [i]
    | none => (pseudoOf mnemonic parts).map expandPseudo

/-- The instructions of a listing given line by line. -/
def assemble : List Text → Option (List Instr)
  | []      => some []
  | l :: ls => do return (← assembleLine l) ++ (← assemble ls)

end Sys2Proof.Machine
end

