-- ==== Sys2Proof/Machine/Parametric.lean ====
section
/-! DEFINITION. The block under any configuration (00_scope.md rule R6), and an instance with its port limits. -/

namespace Sys2Proof.Machine

/-- The block's commands under the parameters `p`, "arguments of the step relation" (10_state.md rule R23). At
`Config.params` it is `exec` (`Sys2Proof.Laws.exec_eq_execWith`). -/
def execWith (p : Params) (i : Instr) (s : State) : Host.Outcome State Fault Refusal :=
  match i with
  | .hdrEnc kind len           => hdrEncWith p kind len s
  | .hdrDec h                  => hdrDecWith p h s
  | .encReq id subtype payload => encodeWith p .request id subtype payload s
  | .encRsp id error payload   => encodeWith p .response id (toU8 error) payload s
  | .encNtf id event payload   => encodeWith p .notification id event payload s
  | .decReq buf                => decodeWith p (some .request) buf s
  | .decRsp buf                => decodeWith p (some .response) buf s
  | .decNtf buf                => decodeWith p (some .notification) buf s
  | .decAny buf                => decodeWith p none buf s
  | .csumClr                   => execCsumClr s
  | .csumAdd b                 => execCsumAdd b s
  | .csumBuf buf               => execCsumBuf buf s
  | .illegal cmd               => execIllegal cmd s

/-- The `buf` operand of an instruction, where it has one (rule R41). -/
def bufOf : Instr → Option (List Byte)
  | .decReq buf  => some buf
  | .decRsp buf  => some buf
  | .decNtf buf  => some buf
  | .decAny buf  => some buf
  | .csumBuf buf => some buf
  | .hdrEnc _ _  => none
  | .hdrDec _    => none
  | .encReq _ _ _ => none
  | .encRsp _ _ _ => none
  | .encNtf _ _ _ => none
  | .csumClr     => none
  | .csumAdd _   => none
  | .illegal _   => none

/-- The `len` operand of an instruction, where it has one (rule R41). -/
def lenOf : Instr → Option Nat
  | .hdrEnc _ len => some len
  | .hdrDec _     => none
  | .encReq _ _ _ => none
  | .encRsp _ _ _ => none
  | .encNtf _ _ _ => none
  | .decReq _     => none
  | .decRsp _     => none
  | .decNtf _     => none
  | .decAny _     => none
  | .csumClr      => none
  | .csumAdd _    => none
  | .csumBuf _    => none
  | .illegal _    => none

/-- What the port limits of an instance say of an instruction: a `buf` longer than RX_CAP is outside what it accepts
(00_scope.md rules R6, R14), and a `len` that does not fit LEN_W bits cannot be presented (rules R6, R41). -/
def portLimit (p : Params) (i : Instr) : Option Refusal :=
  if (bufOf i).any (fun buf => decide (p.rxCap < buf.length)) then some .beyondRxCap
  else if (lenOf i).any (fun len => decide (2 ^ p.lenW ≤ len)) then some .beyondLenW
  else none

/-- One step of a hardware INSTANCE, whose ports have widths: as `step` under the parameters `p`, but with no step
for an operand outside the instance's limits (93_implementation_defined.md I14). The model's own `step` takes buffers
and lengths of any size, as rule R6 says; log entry 6. -/
def instanceStep (p : Params) (s : State) : Host.Outcome State Fault Refusal :=
  match s.pending with
  | []                  => .refused .noCommandIssued
  | .reset :: rest      => .next (s.setPending rest).resetBlock
  | .command c :: rest  =>
    match decode c with
    | .error field => .fault (.illTypedOperand field)
    | .ok i        =>
      match portLimit p i with
      | some r => .refused r
      | none   => execWith p i (s.setPending rest)

end Sys2Proof.Machine
end

