-- ==== Sys2Proof/Safety.lean ====
section
/-! DEFINITION. What a run looks like to the host that keeps its duties, in the terms the claims use. -/

namespace Sys2Proof.Machine

/-- What the host can see: ACC, RES and the STATUS view, and nothing else (10_state.md rule R20). -/
structure Observation where
  acc    : Byte
  res    : Result
  status : Byte
  deriving DecidableEq, Repr

/-- The host reads the registers of a state. -/
def State.observe (s : State) : Observation := ⟨s.acc, s.res, s.status⟩

/-- What a host sees that reads the registers after every one of `n` steps (the duty of 70_reset_and_hazards.md rule
R96): one observation a step, up to the first stop. -/
def observations : Nat → State → List Observation
  | 0, _     => []
  | n + 1, s =>
    match step s with
    | .next t    => t.observe :: observations n t
    | .fault _   => []
    | .refused _ => []

/-- The duty of 00_scope.md rule R14: every command issued has well-typed operands. -/
def wellTypedEvent : HostEvent → Bool
  | .reset     => true
  | .command c => match decode c with
    | .ok _    => true
    | .error _ => false

/-- A safe state: the host's inputs keep the duty of rule R14, so the block never stops before they are used up. -/
def State.safe (s : State) : Bool := s.pending.all wellTypedEvent

end Sys2Proof.Machine
end

