-- ==== Sys2Proof/Certificates/Slice0/Obligations.lean ====
section
/-! DEFINITION. The statements for the provers, and the words of the spec they are written in. -/

namespace Sys2Proof.Claims

open Sys2Proof.Machine

/-! The spec's own arithmetic, on natural numbers, apart from the bit operations the model computes with. -/

/-- The exact sum of the bytes of a sequence, before it is taken mod 256. -/
def byteSum (B : List Byte) : Nat := (B.map BitVec.toNat).sum

/-- The state with RES holding r and everything else as it was. -/
def withRes (s : State) (r : Result) : State := { s with res := r }

/-- A number as a byte, mod 256. -/
abbrev byte (n : Nat) : Byte := BitVec.ofNat 8 n

/-- The number of a message kind (rule R48). -/
def kindNumber : MessageKind → Nat
  | .request      => 0
  | .response     => 1
  | .notification => 2

/-- `LEN_BIAS` of a kind number; the reserved number 3 has none. -/
def biasOf (p : Params) (k : Nat) : Nat :=
  if k = 0 then p.biasRequest else if k = 1 then p.biasResponse else p.biasNotification

/-- The layout of every frame (rule R50): header, id, f2, payload, four reserved bytes, checksum. -/
def layout (h id f2 : Byte) (payload : List Byte) (r0 r1 r2 r3 c : Byte) : List Byte :=
  h :: id :: f2 :: (payload ++ [r0, r1, r2, r3, c])

/-- The bytes of a layout the checksum covers (rule R55): all but the last. -/
def covered (h id f2 : Byte) (payload : List Byte) (r0 r1 r2 r3 : Byte) : List Byte :=
  h :: id :: f2 :: (payload ++ [r0, r1, r2, r3])

/-- The frame the encoder is to produce (rules R50 to R56): kind number k, length field L. -/
def frameOf (k L : Nat) (id f2 : Byte) (payload : List Byte) : List Byte :=
  layout (byte (4 * L + k)) id f2 payload 0 0 0 0 (byte (byteSum (covered (byte (4 * L + k)) id f2 payload 0 0 0 0)))

/-- Kind number, id, second fixed field and payload of an encoder command; `none` for the other commands. -/
def encoderFields : Instr → Option (Nat × Byte × Byte × List Byte)
  | .encReq id subtype payload => some (0, id, subtype, payload)
  | .encRsp id error payload   => some (1, id, byte (error % 256).toNat, payload)
  | .encNtf id event payload   => some (2, id, event, payload)
  | _                          => none

/-- Kind hint (`none` for `DEC.ANY`) and buffer of a decoder command; `none` for the other commands. -/
def decoderFields : Instr → Option (Option Nat × List Byte)
  | .decReq buf => some (some 0, buf)
  | .decRsp buf => some (some 1, buf)
  | .decNtf buf => some (some 2, buf)
  | .decAny buf => some (none, buf)
  | _           => none

/-- The three checksum commands, the only ones that write ACC (rule R15). -/
def isChecksum : Instr → Bool
  | .csumClr   => true
  | .csumAdd _ => true
  | .csumBuf _ => true
  | _          => false

/-- The decoder command with the hint of the kind numbered k. -/
def hintedDecoder (k : Nat) (buf : List Byte) : Instr :=
  if k = 0 then .decReq buf else if k = 1 then .decRsp buf else .decNtf buf

/-- A u8 as an i8, in the words of rule R10. -/
def signed (b : Byte) : Int := if 128 ≤ b.toNat then (b.toNat : Int) - 256 else (b.toNat : Int)

/-- The body of a decoded frame of kind number k (rule R73, step 5). -/
def bodyFor (k : Nat) (f2 : Byte) (payload : List Byte) : Body :=
  if k = 0 then .request f2 payload else if k = 1 then .response (signed f2) payload else .notification f2 payload

/-- The body an encoder command's operands name. -/
def bodyOperand : Instr → Option Body
  | .encReq _ subtype payload => some (.request subtype payload)
  | .encRsp _ error payload   => some (.response error payload)
  | .encNtf _ event payload   => some (.notification event payload)
  | _                         => none

/-- What a decode command with the given hint is to leave in RES for a buffer of at least 8 bytes, its checks in the
order of rule R78. -/
def decodeResult (p : Params) (hint : Option Nat) (h id f2 : Byte) (payload : List Byte) (r0 r1 r2 r3 c : Byte) : Result :=
  let k := h.toNat % 4
  let L := h.toNat / 4
  let expected := byte (byteSum (covered h id f2 payload r0 r1 r2 r3))
  if k = 3 then .err .unknownMessageKind .noInfo
  else if hint ≠ none ∧ hint ≠ some k then .err .kindMismatch .noInfo
  else if L < biasOf p k ∨ L - biasOf p k ≠ payload.length then .err .lengthMismatch .noInfo
  else if c ≠ expected then .err .checksumMismatch (.csumPair expected c)
  else .rx { header := ⟨BitVec.ofNat 2 k, BitVec.ofNat 6 L⟩, id := id, body := bodyFor k f2 payload, checksum := c }

/-- A buffer the block accepts as a frame: `DEC.ANY` answers RX. -/
def Accepted (p : Params) (F : List Byte) : Prop :=
  ∃ s t fr, execWith p (.decAny F) s = .next t ∧ t.res = .rx fr

/-- Bit j of byte i of F flipped. -/
def flipBit (F : List Byte) (i j : Nat) : List Byte := F.set i ((F.getD i 0) ^^^ (1#8 <<< j))

/-- The number of an error code (rule R58). -/
def codeNumber : ErrorCode → Nat
  | .invalidLength      => 1
  | .payloadTooLarge    => 2
  | .unknownMessageKind => 3
  | .truncatedFrame     => 4
  | .lengthMismatch     => 5
  | .checksumMismatch   => 6
  | .kindMismatch       => 7
  | .illegalCommand     => 8

/-- The operand fields a command word reads are well-typed (rules R14, R41, R42). -/
def OperandsTyped (c : Command) : Prop :=
  match c.cmd.toNat with
  | 0x01 => c.ops.kind < 4
  | 0x02 => c.ops.h < 256
  | 0x04 => c.ops.id < 256 ∧ c.ops.subtype < 256 ∧ ∀ n ∈ c.ops.payload, n < 256
  | 0x05 => c.ops.id < 256 ∧ (-128 ≤ c.ops.error ∧ c.ops.error ≤ 127) ∧ ∀ n ∈ c.ops.payload, n < 256
  | 0x06 => c.ops.id < 256 ∧ c.ops.event < 256 ∧ ∀ n ∈ c.ops.payload, n < 256
  | 0x08 => ∀ n ∈ c.ops.buf, n < 256
  | 0x09 => ∀ n ∈ c.ops.buf, n < 256
  | 0x0A => ∀ n ∈ c.ops.buf, n < 256
  | 0x0B => ∀ n ∈ c.ops.buf, n < 256
  | 0x0D => c.ops.b < 256
  | 0x0E => ∀ n ∈ c.ops.buf, n < 256
  | _    => True

/-- The illegal words, by number (rule R43). -/
abbrev illegalNumber (n : Nat) : Prop := n = 0x00 ∨ n = 0x03 ∨ n = 0x07 ∨ n = 0x0F ∨ 0x10 ≤ n

/-- The unit of an instruction by the number of its group (rule R40); the illegal command has none. -/
def groupOf : Instr → Option Nat
  | .hdrEnc _ _ => some 0
  | .hdrDec _   => some 0
  | .encReq _ _ _ => some 1
  | .encRsp _ _ _ => some 1
  | .encNtf _ _ _ => some 1
  | .decReq _   => some 2
  | .decRsp _   => some 2
  | .decNtf _   => some 2
  | .decAny _   => some 2
  | .csumClr    => some 3
  | .csumAdd _  => some 3
  | .csumBuf _  => some 3
  | .illegal _  => none

/-- The kind or hint a frame command's SEL field carries (rule R40): 0, 1, 2, and 3 for no hint. -/
def selectOf : Instr → Option Nat
  | .encReq _ _ _ => some 0
  | .encRsp _ _ _ => some 1
  | .encNtf _ _ _ => some 2
  | .decReq _     => some 0
  | .decRsp _     => some 1
  | .decNtf _     => some 2
  | .decAny _     => some 3
  | _             => none

/-- The host's input that issues an instruction. -/
def issue (i : Instr) : HostEvent := .command (encode i)

/-- The commands of a list, each from the state the one before left. -/
def execAll : List Instr → State → Host.Outcome State Fault Refusal
  | [], s      => .next s
  | i :: is, s =>
    match exec i s with
    | .next t    => execAll is t
    | .fault f   => .fault f
    | .refused r => .refused r

/-- What the last result says of itself and of ACC, in every state a step leaves (this hardware's configuration). -/
def ResultInv (acc : Byte) : Result → Prop
  | .none           => acc = 0
  | .hdrByte h      => h.toNat % 4 ≠ 3
  | .hdrFields k _  => k.toNat ≠ 3
  | .csum v         => v = acc
  | .tx F           => ∃ k id f2 payload, k < 3 ∧ payload.length ≤ 63 ∧ F = frameOf k payload.length id f2 payload
  | .rx fr          =>
    fr.header.kind.toNat = kindNumber fr.body.kind ∧ fr.header.length.toNat = fr.body.payload.length ∧
      ∀ error payload, fr.body = .response error payload → -128 ≤ error ∧ error ≤ 127
  | .err code info  =>
    (code ≠ .checksumMismatch → info = .noInfo) ∧
      (code = .checksumMismatch → ∃ expected received, expected ≠ received ∧ info = .csumPair expected received)

/-- The invariant of the block and its host: RES is consistent, and the inputs to come are well-typed. -/
def BlockInv (s : State) : Prop := ResultInv s.acc s.res ∧ s.safe = true

end Sys2Proof.Claims

open Sys2Proof Sys2Proof.Machine Sys2Proof.Claims

/-! ## Encodings -/

/-- Rules R42 and R43: the command map row by row, each command reading only its own operands; every other word, and
only those 244, is the illegal command. -/
def Obligations.CommandWordsDecodeByTheMap : Prop :=
  (∀ o : Operands,
    (o.kind < 4 → decode ⟨0x01, o⟩ = .ok (.hdrEnc (BitVec.ofNat 2 o.kind) o.len)) ∧
    (o.h < 256 → decode ⟨0x02, o⟩ = .ok (.hdrDec (byte o.h))) ∧
    (o.id < 256 → o.subtype < 256 → (∀ n ∈ o.payload, n < 256) →
      decode ⟨0x04, o⟩ = .ok (.encReq (byte o.id) (byte o.subtype) (o.payload.map byte))) ∧
    (o.id < 256 → -128 ≤ o.error → o.error ≤ 127 → (∀ n ∈ o.payload, n < 256) →
      decode ⟨0x05, o⟩ = .ok (.encRsp (byte o.id) o.error (o.payload.map byte))) ∧
    (o.id < 256 → o.event < 256 → (∀ n ∈ o.payload, n < 256) →
      decode ⟨0x06, o⟩ = .ok (.encNtf (byte o.id) (byte o.event) (o.payload.map byte))) ∧
    ((∀ n ∈ o.buf, n < 256) →
      decode ⟨0x08, o⟩ = .ok (.decReq (o.buf.map byte)) ∧ decode ⟨0x09, o⟩ = .ok (.decRsp (o.buf.map byte)) ∧
      decode ⟨0x0A, o⟩ = .ok (.decNtf (o.buf.map byte)) ∧ decode ⟨0x0B, o⟩ = .ok (.decAny (o.buf.map byte)) ∧
      decode ⟨0x0E, o⟩ = .ok (.csumBuf (o.buf.map byte))) ∧
    decode ⟨0x0C, o⟩ = .ok .csumClr ∧
    (o.b < 256 → decode ⟨0x0D, o⟩ = .ok (.csumAdd (byte o.b)))) ∧
  (∀ (c : Byte) (o : Operands), decode ⟨c, o⟩ = .ok (.illegal c) ↔ illegalNumber c.toNat) ∧
  ((List.range 256).filter fun n => decide (illegalNumber n)).length = 244

/-- Rule R40: a non-zero Z field makes the word illegal, GRP selects the unit, and SEL is the message kind or hint of a
frame command (11 in group 10: no hint). -/
def Obligations.CommandFieldsSelectUnitAndKind : Prop :=
  ∀ (c : Byte) (o : Operands) (i : Instr), decode ⟨c, o⟩ = .ok i →
    (c.toNat / 16 ≠ 0 → i = .illegal c) ∧
    (∀ g, groupOf i = some g → c.toNat / 16 = 0 ∧ g = c.toNat / 4 % 4) ∧
    (∀ k, selectOf i = some k → k = c.toNat % 4)

/-- No bit of a command is dropped: decoding the encoded command of a well-formed instruction gives it back, for every
instruction and every operand. -/
def Obligations.DecodeOfEncodeIsTheInstruction : Prop :=
  ∀ i : Instr, i.wellFormed = true → decode (encode i) = .ok i

/-- The other direction: what the decoder reads is well-formed, keeps its command word, and encodes to a command that
decodes to the same. -/
def Obligations.DecodedCommandsAreWellFormed : Prop :=
  ∀ (c : Command) (i : Instr), decode c = .ok i →
    i.wellFormed = true ∧ (encode i).cmd = c.cmd ∧ decode (encode i) = .ok i

/-- Words written out from rule R40's fields Z:GRP:SEL and rule R42's rows, one of each family. -/
def Obligations.SampleCommandWordsDecode : Prop :=
  decode ⟨0b0000_00_01#8, { Operands.zero with kind := 2, len := 5 }⟩ = .ok (.hdrEnc 2 5) ∧
  decode ⟨0b0000_00_10#8, { Operands.zero with h := 0x16 }⟩ = .ok (.hdrDec 0x16) ∧
  decode ⟨0b0000_01_01#8, { Operands.zero with id := 5, error := -1, payload := [1, 2] }⟩ = .ok (.encRsp 5 (-1) [1, 2]) ∧
  decode ⟨0b0000_10_11#8, { Operands.zero with buf := [3, 0] }⟩ = .ok (.decAny [3, 0]) ∧
  decode ⟨0b0000_11_01#8, { Operands.zero with b := 0xFF }⟩ = .ok (.csumAdd 0xFF) ∧
  decode ⟨0b0000_01_11#8, Operands.zero⟩ = .ok (.illegal 0x07) ∧
  decode ⟨0b0001_11_00#8, Operands.zero⟩ = .ok (.illegal 0x1C)

/-- Rule R44: an illegal word, whatever its operand record, raises IllegalCommand and leaves ACC as it was. -/
def Obligations.IllegalWordsRaiseIllegalCommand : Prop :=
  (∀ (c : Byte) (s : State), exec (.illegal c) s = .next (withRes s (.err .illegalCommand .noInfo))) ∧
  (∀ (c : Byte) (o : Operands) (s : State) (rest : List HostEvent), illegalNumber c.toNat →
    s.pending = .command ⟨c, o⟩ :: rest →
    ∃ t, step s = .next t ∧ t.acc = s.acc ∧ t.res = .err .illegalCommand .noInfo ∧ t.status = 0x88 ∧ t.pending = rest)

/-- Rule R14 and I15: a command has no step exactly when an operand it reads is not well-typed; the fields it does not
read do not matter (the fault's field name is the model's own, log entry 3). -/
def Obligations.IllTypedOperandsHaveNoStep : Prop :=
  ∀ (s : State) (c : Command) (rest : List HostEvent), s.pending = .command c :: rest →
    ((∃ f, step s = .fault (.illTypedOperand f)) ↔ ¬ OperandsTyped c) ∧
    (OperandsTyped c → ∃ t, step s = .next t)

/-- Rule R59's examples, read as listings; rule R60's pseudo-commands too. -/
def Obligations.ListingExamplesAssemble : Prop :=
  assemble ["HDR.ENC kind=2, len=5".toList, "HDR.DEC h=0x16".toList, "CSUM.CLR".toList, "CSUM.ADD b=0x20 ; add".toList] =
    some [.hdrEnc 2 5, .hdrDec 0x16, .csumClr, .csumAdd 0x20] ∧
  assemble ["CSUM.BUF buf=[0x01, 0x02]".toList, "ENC.REQ id=1, subtype=0, payload=[0x42]".toList,
      "ENC.RSP id=5, error=-1, payload=[]".toList, "ENC.NTF id=0x10, event=1, payload=[0xAA]".toList] =
    some [.csumBuf [1, 2], .encReq 1 0 [0x42], .encRsp 5 (-1) [], .encNtf 0x10 1 [0xAA]] ∧
  assemble ["DEC.ANY buf=[0x02, 0, 0, 0, 0, 0, 0, 0x02]".toList, "DEC buf=rep(2, 0xAB)".toList,
      "CSUM.SEQ 1, 0x02".toList, "DEC.REQ buf=zeros(3)".toList] =
    some [.decAny [2, 0, 0, 0, 0, 0, 0, 2], .decAny [0xAB, 0xAB], .csumClr, .csumAdd 1, .csumAdd 2, .decReq [0, 0, 0]]

/-! ## Configuration and state -/

/-- Rules R5, R6 and R7: the values of this hardware's parameters, the derived frame sizes, and that the machine is the
parametric block at these values. -/
def Obligations.ConfigurationOfThisHardware : Prop :=
  (∀ k, Config.params.lenBias k = 0) ∧ Config.params.permitKind3 = false ∧ Config.params.lenW = 8 ∧
  Config.params.Legal ∧
  Config.lenMax = 63 ∧ Config.fixedFields = 2 ∧ Config.reservedLen = 4 ∧ Config.csumLen = 1 ∧ Config.minFrame = 8 ∧
  (∀ k, Config.cap Config.params k = 63 ∧ Config.maxFrame Config.params k = 71) ∧
  (∀ p k, Config.cap p k = 63 - p.lenBias k ∧ Config.maxFrame p k = 71 - p.lenBias k) ∧
  (∀ i s, exec i s = execWith Config.params i s)

/-- Rule R22 (with the numbers of rule R58's table): STATUS is 0 for NONE, 0x80 after a success, `0x80 | code` after a
failure, so bits 6:4 are 0; it is 0 after reset and depends on RES alone. -/
def Obligations.StatusIsAViewOfRes : Prop :=
  (∀ s : State, s.status.toNat =
    match s.res with
    | .none       => 0
    | .err code _ => 128 + codeNumber code
    | _           => 128) ∧
  State.reset.status = 0 ∧
  (∀ s t : State, s.res = t.res → s.status = t.status) ∧
  (∀ code, 1 ≤ codeNumber code ∧ codeNumber code ≤ 8)

/-- Rule R92: the reset event sets the whole state to its reset value; no command does (none leaves RES = NONE), and
`CSUM.CLR` clears ACC alone. That a reset event is a step of its own, after which the host's later inputs are as they
were, is the model's choice (log entries 1 and 4): the spec does not speak of what the host issues afterwards. -/
def Obligations.ResetEventSetsTheWholeState : Prop :=
  (State.reset.acc = 0 ∧ State.reset.res = .none ∧ State.reset.status = 0) ∧
  (∀ (s : State) (rest : List HostEvent), s.pending = .reset :: rest →
    ∃ t, step s = .next t ∧ t.acc = 0 ∧ t.res = .none ∧ t.status = 0 ∧ t.pending = rest) ∧
  (∀ i s t, exec i s = .next t → t.res ≠ .none) ∧
  (∀ s, exec .csumClr s = .next { s with acc := 0, res := .csum 0 })

/-- Rule R18, the column "written by": which command leaves which result in RES; none leaves NONE, and only
ChecksumMismatch carries CSUM_PAIR. -/
def Obligations.ResultsComeFromTheirCommands : Prop :=
  ∀ i s t, exec i s = .next t →
    match t.res with
    | .none          => False
    | .hdrByte _     => ∃ kind len, i = .hdrEnc kind len
    | .hdrFields _ _ => ∃ h, i = .hdrDec h
    | .csum v        => isChecksum i = true ∧ v = t.acc
    | .tx _          => (encoderFields i).isSome = true
    | .rx _          => (decoderFields i).isSome = true
    | .err code info => isChecksum i = false ∧ (info = .noInfo ↔ code ≠ .checksumMismatch)

/-- Rule R16: header, frame and illegal commands neither read nor write ACC. -/
def Obligations.OnlyChecksumCommandsTouchAcc : Prop :=
  ∀ (i : Instr) (s : State), isChecksum i = false → ∃ r : Result, ∀ a : Byte,
    exec i { s with acc := a } = .next { s with acc := a, res := r }

/-- Rules R11 and R17: every command, from every state, ends in a next state with RES written; what it writes does not
depend on the old RES, which no command reads. The host's further inputs stay (the model's own field, log entry 1). -/
def Obligations.EveryCommandWritesResAndReadsItNot : Prop :=
  ∀ (i : Instr) (s : State), ∃ (a : Byte) (r : Result), r ≠ .none ∧ ∀ old : Result,
    exec i (withRes s old) = .next { s with acc := a, res := r }

/-- Rules R82 and R84: a failed command changes RES alone, and whatever command comes next does what it would have
done without it. -/
def Obligations.FailedCommandsChangeOnlyRes : Prop :=
  ∀ i s t code info, exec i s = .next t → t.res = .err code info →
    t = withRes s (.err code info) ∧ ∀ j, exec j t = exec j s

/-- Rule R95: the header, encoder and decoder commands depend only on their operands; `CSUM.CLR` and `CSUM.BUF` do not
read the old ACC, `CSUM.ADD` does; from reset no clear is needed. -/
def Obligations.NothingNeedsInitialising : Prop :=
  (∀ i s s' t t', (∀ b, i ≠ .csumAdd b) → exec i s = .next t → exec i s' = .next t' →
    t.res = t'.res ∧ (isChecksum i = true → t.acc = t'.acc)) ∧
  (∀ b s s' t t', exec (.csumAdd b) s = .next t → exec (.csumAdd b) s' = .next t' →
    (t.acc = t'.acc ↔ s.acc = s'.acc)) ∧
  (∀ B : List Byte, ∃ t, execAll (B.map .csumAdd) State.reset = .next t ∧ t.acc = byte (byteSum B))

/-- Rule R35: header and frame commands issued twice do what they do once, `CSUM.CLR` and `CSUM.BUF` too; each
`CSUM.ADD` adds its byte again. -/
def Obligations.RepeatedCommandsAreIdempotentButForAdd : Prop :=
  (∀ i s t, (∀ b, i ≠ .csumAdd b) → exec i s = .next t → exec i t = .next t ∧ (isChecksum i = false → t.acc = s.acc)) ∧
  (∀ b s t u, exec (.csumAdd b) s = .next t → exec (.csumAdd b) t = .next u →
    u.acc.toNat = (s.acc.toNat + 2 * b.toNat) % 256 ∧ (b ≠ 0 → u.acc ≠ t.acc))

/-- Rule R81: which command raises which error, on what cause, and what the error records, under every configuration. -/
def Obligations.ErrorsHaveTheirStatedCauses : Prop :=
  ∀ p i s t code info, execWith p i s = .next t → t.res = .err code info →
    match code with
    | .invalidLength => info = .noInfo ∧ ∃ kind len, i = .hdrEnc kind len ∧ 63 < len
    | .payloadTooLarge => info = .noInfo ∧ ∃ k id f2 payload, encoderFields i = some (k, id, f2, payload) ∧
        63 < payload.length + biasOf p k
    | .unknownMessageKind => info = .noInfo ∧
        ((p.permitKind3 = false ∧ ∃ len, i = .hdrEnc 3 len) ∨
         (p.permitKind3 = false ∧ ∃ h, i = .hdrDec h ∧ h.toNat % 4 = 3) ∨
         ∃ hint h B, decoderFields i = some (hint, h :: B) ∧ 7 ≤ B.length ∧ h.toNat % 4 = 3)
    | .truncatedFrame => info = .noInfo ∧ ∃ hint B, decoderFields i = some (hint, B) ∧ B.length < 8
    | .kindMismatch => info = .noInfo ∧ ∃ hint h B, decoderFields i = some (some hint, h :: B) ∧ 7 ≤ B.length ∧
        h.toNat % 4 < 3 ∧ h.toNat % 4 ≠ hint
    | .lengthMismatch => info = .noInfo ∧ ∃ hint h B, decoderFields i = some (hint, h :: B) ∧ 7 ≤ B.length ∧
        (h.toNat / 4 < biasOf p (h.toNat % 4) ∨ h.toNat / 4 - biasOf p (h.toNat % 4) ≠ B.length - 7)
    | .checksumMismatch => ∃ hint B c, decoderFields i = some (hint, B ++ [c]) ∧ 7 ≤ B.length ∧
        c ≠ byte (byteSum B) ∧ info = .csumPair (byte (byteSum B)) c
    | .illegalCommand => info = .noInfo ∧ ∃ c, i = .illegal c

/-! ## Header codec -/

/-- Rule R46 and rule R47: packing and unpacking as arithmetic, and that they are inverse to each other. -/
def Obligations.HeaderPackAndUnpackAreInverse : Prop :=
  (∀ (kind : BitVec 2) (len : Nat), (packHeader kind len).toNat = 4 * (len % 64) + kind.toNat) ∧
  (∀ h : Byte, (unpackKind h).toNat = h.toNat % 4 ∧ (unpackLength h).toNat = h.toNat / 4 ∧
    packHeader (unpackKind h) (unpackLength h).toNat = h) ∧
  (∀ (kind : BitVec 2) (len : BitVec 6),
    unpackKind (packHeader kind len.toNat) = kind ∧ unpackLength (packHeader kind len.toNat) = len)

/-- Rule R61: `HDR.ENC`, word 0x01, under every configuration and on this hardware; a length above 63 is reported
before kind 3. Everything but RES stays. -/
def Obligations.HdrEncPacksOrFails : Prop :=
  (∀ o : Operands, o.kind < 4 → decode ⟨0x01, o⟩ = .ok (.hdrEnc (BitVec.ofNat 2 o.kind) o.len)) ∧
  (∀ p kind len s, execWith p (.hdrEnc kind len) s = .next (withRes s (
    if 63 < len then .err .invalidLength .noInfo
    else if kind.toNat = 3 ∧ p.permitKind3 = false then .err .unknownMessageKind .noInfo
    else .hdrByte (byte (4 * len + kind.toNat))))) ∧
  (∀ kind len s, len ≤ 63 → kind.toNat < 3 →
    exec (.hdrEnc kind len) s = .next (withRes s (.hdrByte (byte (4 * len + kind.toNat))))) ∧
  (∀ kind len s, 63 < len → exec (.hdrEnc kind len) s = .next (withRes s (.err .invalidLength .noInfo))) ∧
  (∀ len s, len ≤ 63 → exec (.hdrEnc 3 len) s = .next (withRes s (.err .unknownMessageKind .noInfo)))

/-- Rule R62: `HDR.DEC`, word 0x02; for every byte of kind 0..2, `HDR.ENC` of the result gives the byte back. -/
def Obligations.HdrDecUnpacksOrFails : Prop :=
  (∀ o : Operands, o.h < 256 → decode ⟨0x02, o⟩ = .ok (.hdrDec (byte o.h))) ∧
  (∀ p h s, execWith p (.hdrDec h) s = .next (withRes s (
    if h.toNat % 4 = 3 ∧ p.permitKind3 = false then .err .unknownMessageKind .noInfo
    else .hdrFields (BitVec.ofNat 2 (h.toNat % 4)) (BitVec.ofNat 6 (h.toNat / 4))))) ∧
  (∀ h s, h.toNat % 4 < 3 → exec (.hdrDec h) s =
    .next (withRes s (.hdrFields (BitVec.ofNat 2 (h.toNat % 4)) (BitVec.ofNat 6 (h.toNat / 4))))) ∧
  (∀ h s, h.toNat % 4 = 3 → exec (.hdrDec h) s = .next (withRes s (.err .unknownMessageKind .noInfo))) ∧
  (∀ h s t kind length, exec (.hdrDec h) s = .next t → t.res = .hdrFields kind length →
    exec (.hdrEnc kind length.toNat) t = .next (withRes t (.hdrByte h)))

/-- Rule R49: kind 3 names no variant. -/
def Obligations.KindThreeNamesNoVariant : Prop :=
  ∀ p : Params,
    (∀ h s, h.toNat % 4 = 3 → execWith p (.hdrDec h) s = .next (withRes s (
      if p.permitKind3 then .hdrFields 3 (BitVec.ofNat 6 (h.toNat / 4)) else .err .unknownMessageKind .noInfo))) ∧
    (∀ i hint h B s, decoderFields i = some (hint, h :: B) → 7 ≤ B.length → h.toNat % 4 = 3 →
      execWith p i s = .next (withRes s (.err .unknownMessageKind .noInfo))) ∧
    (∀ i s t h F, (encoderFields i).isSome = true → execWith p i s = .next t → t.res = .tx (h :: F) → h.toNat % 4 ≠ 3) ∧
    (∀ len s, execWith p (.hdrEnc 3 len) s = .next (withRes s (
      if 63 < len then .err .invalidLength .noInfo
      else if p.permitKind3 then .hdrByte (byte (4 * len + 3)) else .err .unknownMessageKind .noInfo)))

/-! ## Checksum accumulator -/

/-- Rule R63: `sum8` is the sum mod 256, and it is computed byte by byte from 0. -/
def Obligations.SumEightIsTheRunningSum : Prop :=
  (∀ B, (sum8 B).toNat = byteSum B % 256) ∧ sum8 [] = 0 ∧
  (∀ B, (sum8 B).toNat = B.foldl (fun a b => (a + b.toNat) % 256) 0)

/-- Rule R64: `CSUM.CLR`, word 0x0C. -/
def Obligations.CsumClrClearsTheAccumulator : Prop :=
  (∀ o : Operands, decode ⟨0x0C, o⟩ = .ok .csumClr) ∧
  (∀ s, exec .csumClr s = .next { s with acc := 0, res := .csum 0 }) ∧
  (∀ s t, exec .csumClr s = .next t → exec .csumClr t = .next t ∧ t.acc = State.reset.acc)

/-- Rule R65: `CSUM.ADD`, word 0x0D; the carry out is lost. -/
def Obligations.CsumAddAddsModulo256 : Prop :=
  (∀ o : Operands, o.b < 256 → decode ⟨0x0D, o⟩ = .ok (.csumAdd (byte o.b))) ∧
  (∀ b s, exec (.csumAdd b) s =
    .next { s with acc := byte ((s.acc.toNat + b.toNat) % 256), res := .csum (byte ((s.acc.toNat + b.toNat) % 256)) })

/-- Rule R66: `CSUM.BUF`, word 0x0E, of any buffer; it does what `CSUM.CLR` and one `CSUM.ADD` per byte do. -/
def Obligations.CsumBufSumsTheBuffer : Prop :=
  (∀ o : Operands, (∀ n ∈ o.buf, n < 256) → decode ⟨0x0E, o⟩ = .ok (.csumBuf (o.buf.map byte))) ∧
  (∀ buf s, exec (.csumBuf buf) s =
    .next { s with acc := byte (byteSum buf % 256), res := .csum (byte (byteSum buf % 256)) }) ∧
  (∀ buf s, execAll (.csumClr :: buf.map .csumAdd) s = exec (.csumBuf buf) s)

/-- Rule R60: what the pseudo-commands expand to, and that `CSUM.SEQ`, issued to the block, leaves `ACC = sum8`. -/
def Obligations.PseudoCommandsExpandAndRun : Prop :=
  (∀ buf, expandPseudo (.dec buf) = [.decAny buf]) ∧
  (∀ bs, expandPseudo (.csumSeq bs) = .csumClr :: bs.map .csumAdd) ∧
  (∀ (bs : List Byte) (s : State) (rest : List HostEvent),
    core.run (bs.length + 1) (s.setPending ((expandPseudo (.csumSeq bs)).map issue ++ rest)) =
      .next (⟨sum8 bs, .csum (sum8 bs), rest⟩ : State))

/-- Rule R67, laws 1, 2, 3 and 6: adds without a clear, concatenation, order, and changes that cancel. -/
def Obligations.ChecksumFoldConcatenationAndOrder : Prop :=
  (∀ B s, ∃ t, execAll (B.map .csumAdd) s = .next t ∧ t.acc.toNat = (s.acc.toNat + byteSum B) % 256) ∧
  (∀ A B, (sum8 (A ++ B)).toNat = ((sum8 A).toNat + (sum8 B).toNat) % 256) ∧
  (∀ A B : List Byte, A.Perm B → ∀ s, exec (.csumBuf A) s = exec (.csumBuf B) s) ∧
  (∀ (A B C : List Byte) (x y d : Byte) (s : State),
    exec (.csumBuf (A ++ (x + d) :: (B ++ (y - d) :: C))) s = exec (.csumBuf (A ++ x :: (B ++ y :: C))) s)

/-- Rule R67, laws 4 and 5: a changed byte changes the checksum, a flipped bit j by `+2^j` or `-2^j`. -/
def Obligations.ChecksumDetectsEveryOneByteChange : Prop :=
  (∀ (A B : List Byte) (x y : Byte), x ≠ y → sum8 (A ++ x :: B) ≠ sum8 (A ++ y :: B)) ∧
  (∀ (A B : List Byte) (x : Byte) (j : Nat), j < 8 →
    let before := sum8 (A ++ x :: B)
    let after := sum8 (A ++ (x ^^^ (1#8 <<< j)) :: B)
    after ≠ before ∧ (after = before + byte (2 ^ j) ∨ after = before - byte (2 ^ j)))

/-! ## Frame encoder -/

/-- Rule R69: `ENC.REQ`, word 0x04: the Request frame of rule R51, or PayloadTooLarge. Everything but RES stays. -/
def Obligations.EncReqProducesTheRequestFrame : Prop :=
  (∀ o : Operands, o.id < 256 → o.subtype < 256 → (∀ n ∈ o.payload, n < 256) →
    decode ⟨0x04, o⟩ = .ok (.encReq (byte o.id) (byte o.subtype) (o.payload.map byte))) ∧
  (∀ p id subtype payload s, execWith p (.encReq id subtype payload) s = .next (withRes s (
    if 63 < payload.length + biasOf p 0 then .err .payloadTooLarge .noInfo
    else .tx (frameOf 0 (payload.length + biasOf p 0) id subtype payload)))) ∧
  (∀ id subtype payload s, payload.length ≤ 63 → exec (.encReq id subtype payload) s =
    .next (withRes s (.tx (frameOf 0 payload.length id subtype payload)))) ∧
  (∀ id subtype payload s, 63 < payload.length → exec (.encReq id subtype payload) s =
    .next (withRes s (.err .payloadTooLarge .noInfo)))

/-- Rule R70: `ENC.RSP`, word 0x05: the Response frame of rule R52, its error byte `error mod 256`, or
PayloadTooLarge. -/
def Obligations.EncRspProducesTheResponseFrame : Prop :=
  (∀ o : Operands, o.id < 256 → -128 ≤ o.error → o.error ≤ 127 → (∀ n ∈ o.payload, n < 256) →
    decode ⟨0x05, o⟩ = .ok (.encRsp (byte o.id) o.error (o.payload.map byte))) ∧
  (∀ p id error payload s, execWith p (.encRsp id error payload) s = .next (withRes s (
    if 63 < payload.length + biasOf p 1 then .err .payloadTooLarge .noInfo
    else .tx (frameOf 1 (payload.length + biasOf p 1) id (byte (error % 256).toNat) payload)))) ∧
  (∀ id error payload s, payload.length ≤ 63 → exec (.encRsp id error payload) s =
    .next (withRes s (.tx (frameOf 1 payload.length id (byte (error % 256).toNat) payload)))) ∧
  (∀ id error payload s, 63 < payload.length → exec (.encRsp id error payload) s =
    .next (withRes s (.err .payloadTooLarge .noInfo)))

/-- Rule R71: `ENC.NTF`, word 0x06: the Notification frame of rule R53 for every event byte, or PayloadTooLarge. -/
def Obligations.EncNtfProducesTheNotificationFrame : Prop :=
  (∀ o : Operands, o.id < 256 → o.event < 256 → (∀ n ∈ o.payload, n < 256) →
    decode ⟨0x06, o⟩ = .ok (.encNtf (byte o.id) (byte o.event) (o.payload.map byte))) ∧
  (∀ p id event payload s, execWith p (.encNtf id event payload) s = .next (withRes s (
    if 63 < payload.length + biasOf p 2 then .err .payloadTooLarge .noInfo
    else .tx (frameOf 2 (payload.length + biasOf p 2) id event payload)))) ∧
  (∀ id event payload s, payload.length ≤ 63 → exec (.encNtf id event payload) s =
    .next (withRes s (.tx (frameOf 2 payload.length id event payload)))) ∧
  (∀ id event payload s, 63 < payload.length → exec (.encNtf id event payload) s =
    .next (withRes s (.err .payloadTooLarge .noInfo)))

/-- Rule R72: the encoder laws: shape, length boundary, whole-frame sum, totality, under every configuration. -/
def Obligations.EncoderLaws : Prop :=
  (∀ p i k id f2 payload s, encoderFields i = some (k, id, f2, payload) →
    ∃ t, execWith p i s = .next t ∧
      (t.res = .err .payloadTooLarge .noInfo ∨
       ∃ h rest c, t.res = .tx (h :: rest ++ [0, 0, 0, 0, c]) ∧ rest.length = payload.length + 2 ∧
         h.toNat = 4 * (payload.length + biasOf p k) + k ∧
         c = sum8 (h :: rest ++ [0, 0, 0, 0]) ∧
         (sum8 (h :: rest ++ [0, 0, 0, 0, c])).toNat = 2 * c.toNat % 256)) ∧
  (∀ i k id f2 payload s, encoderFields i = some (k, id, f2, payload) →
    (payload.length = 63 → ∃ F, exec i s = .next (withRes s (.tx F))) ∧
    (payload.length = 64 → exec i s = .next (withRes s (.err .payloadTooLarge .noInfo)))) ∧
  (∀ kind s, exec (.hdrEnc kind 64) s = .next (withRes s (.err .invalidLength .noInfo)))

/-- Rule R7 and decision D19: every frame the block produces or accepts has 8 to `71 - LEN_BIAS(k)` bytes, so it fits in
any legal RX_CAP. -/
def Obligations.FramesHaveEightToSeventyOneBytes : Prop :=
  (∀ p i s t k id f2 payload F, encoderFields i = some (k, id, f2, payload) → execWith p i s = .next t →
    t.res = .tx F → F.length = payload.length + 8 ∧ F.length ≤ 71 - biasOf p k) ∧
  (∀ p i s t hint B fr, decoderFields i = some (hint, B) → execWith p i s = .next t → t.res = .rx fr →
    8 ≤ B.length ∧ B.length ≤ 71 - biasOf p (kindNumber fr.body.kind)) ∧
  (∀ p B, p.Legal → Accepted p B → B.length ≤ p.rxCap)

/-! ## Frame decoder -/

/-- Rules R73 and R78: the decode algorithm for every hint and configuration, its five checks in their order. Every
buffer is either shorter than 8 bytes or has the layout. -/
def Obligations.DecodeChecksRunInTheirOrder : Prop :=
  (∀ B : List Byte, 8 ≤ B.length →
    ∃ h id f2 payload r0 r1 r2 r3 c, B = layout h id f2 payload r0 r1 r2 r3 c) ∧
  (∀ p hint B s, B.length < 8 → decodeWith p hint B s = .next (withRes s (.err .truncatedFrame .noInfo))) ∧
  (∀ p hint h id f2 payload r0 r1 r2 r3 c s,
    decodeWith p hint (layout h id f2 payload r0 r1 r2 r3 c) s =
      .next (withRes s (decodeResult p (hint.map kindNumber) h id f2 payload r0 r1 r2 r3 c))) ∧
  (∀ p B s, execWith p (.decReq B) s = decodeWith p (some .request) B s ∧
    execWith p (.decRsp B) s = decodeWith p (some .response) B s ∧
    execWith p (.decNtf B) s = decodeWith p (some .notification) B s ∧
    execWith p (.decAny B) s = decodeWith p none B s)

/-- Rule R74: `DEC.REQ`, word 0x08: a Request frame is accepted whatever its reserved bytes; a header of kind 1 or 2 is
KindMismatch. Everything but RES stays. -/
def Obligations.DecReqAcceptsRequestFrames : Prop :=
  (∀ o : Operands, (∀ n ∈ o.buf, n < 256) → decode ⟨0x08, o⟩ = .ok (.decReq (o.buf.map byte))) ∧
  (∀ id subtype payload r0 r1 r2 r3 s, payload.length ≤ 63 →
    let h := byte (4 * payload.length)
    let c := byte (byteSum (covered h id subtype payload r0 r1 r2 r3))
    exec (.decReq (layout h id subtype payload r0 r1 r2 r3 c)) s = .next (withRes s (
      .rx { header := ⟨0, BitVec.ofNat 6 payload.length⟩, id := id, body := .request subtype payload, checksum := c }))) ∧
  (∀ B s, B.length < 8 → exec (.decReq B) s = .next (withRes s (.err .truncatedFrame .noInfo))) ∧
  (∀ p h id f2 payload r0 r1 r2 r3 c s, execWith p (.decReq (layout h id f2 payload r0 r1 r2 r3 c)) s =
    .next (withRes s (decodeResult p (some 0) h id f2 payload r0 r1 r2 r3 c)))

/-- Rule R75: `DEC.RSP`, word 0x09: a Response frame is accepted, its error byte read as an i8. -/
def Obligations.DecRspAcceptsResponseFrames : Prop :=
  (∀ o : Operands, (∀ n ∈ o.buf, n < 256) → decode ⟨0x09, o⟩ = .ok (.decRsp (o.buf.map byte))) ∧
  (∀ id f2 payload r0 r1 r2 r3 s, payload.length ≤ 63 →
    let h := byte (4 * payload.length + 1)
    let c := byte (byteSum (covered h id f2 payload r0 r1 r2 r3))
    exec (.decRsp (layout h id f2 payload r0 r1 r2 r3 c)) s = .next (withRes s (
      .rx { header := ⟨1, BitVec.ofNat 6 payload.length⟩, id := id, body := .response (signed f2) payload, checksum := c }))) ∧
  (∀ B s, B.length < 8 → exec (.decRsp B) s = .next (withRes s (.err .truncatedFrame .noInfo))) ∧
  (∀ p h id f2 payload r0 r1 r2 r3 c s, execWith p (.decRsp (layout h id f2 payload r0 r1 r2 r3 c)) s =
    .next (withRes s (decodeResult p (some 1) h id f2 payload r0 r1 r2 r3 c)))

/-- Rule R76: `DEC.NTF`, word 0x0A: a Notification frame is accepted with every event byte. -/
def Obligations.DecNtfAcceptsNotificationFrames : Prop :=
  (∀ o : Operands, (∀ n ∈ o.buf, n < 256) → decode ⟨0x0A, o⟩ = .ok (.decNtf (o.buf.map byte))) ∧
  (∀ id event payload r0 r1 r2 r3 s, payload.length ≤ 63 →
    let h := byte (4 * payload.length + 2)
    let c := byte (byteSum (covered h id event payload r0 r1 r2 r3))
    exec (.decNtf (layout h id event payload r0 r1 r2 r3 c)) s = .next (withRes s (
      .rx { header := ⟨2, BitVec.ofNat 6 payload.length⟩, id := id, body := .notification event payload, checksum := c }))) ∧
  (∀ B s, B.length < 8 → exec (.decNtf B) s = .next (withRes s (.err .truncatedFrame .noInfo))) ∧
  (∀ p h id f2 payload r0 r1 r2 r3 c s, execWith p (.decNtf (layout h id f2 payload r0 r1 r2 r3 c)) s =
    .next (withRes s (decodeResult p (some 2) h id f2 payload r0 r1 r2 r3 c)))

/-- Rule R77: `DEC.ANY`, word 0x0B: a frame of any kind is accepted, the header's kind selecting the variant;
KindMismatch is never raised. -/
def Obligations.DecAnyAcceptsFramesOfEveryKind : Prop :=
  (∀ o : Operands, (∀ n ∈ o.buf, n < 256) → decode ⟨0x0B, o⟩ = .ok (.decAny (o.buf.map byte))) ∧
  (∀ k id f2 payload r0 r1 r2 r3 s, k < 3 → payload.length ≤ 63 →
    let h := byte (4 * payload.length + k)
    let c := byte (byteSum (covered h id f2 payload r0 r1 r2 r3))
    exec (.decAny (layout h id f2 payload r0 r1 r2 r3 c)) s = .next (withRes s (
      .rx { header := ⟨BitVec.ofNat 2 k, BitVec.ofNat 6 payload.length⟩, id := id, body := bodyFor k f2 payload, checksum := c }))) ∧
  (∀ B s, B.length < 8 → exec (.decAny B) s = .next (withRes s (.err .truncatedFrame .noInfo))) ∧
  (∀ p h id f2 payload r0 r1 r2 r3 c s, execWith p (.decAny (layout h id f2 payload r0 r1 r2 r3 c)) s =
    .next (withRes s (decodeResult p none h id f2 payload r0 r1 r2 r3 c))) ∧
  (∀ p B s t info, execWith p (.decAny B) s = .next t → t.res ≠ .err .kindMismatch info)

/-- Rule R79, law 1: decoding an encoded frame, with no hint or the matching one, gives back header, id, the variant's
field, payload and checksum, under every configuration. -/
def Obligations.DecodeOfEncodedFrameGivesTheFields : Prop :=
  ∀ p i k id f2 payload body s t F, i.wellFormed = true → encoderFields i = some (k, id, f2, payload) →
    bodyOperand i = some body → execWith p i s = .next t → t.res = .tx F →
    ∃ c, F.getLast? = some c ∧
      ∀ j, (j = .decAny F ∨ j = hintedDecoder k F) → ∀ u, execWith p j u = .next (withRes u (.rx
        { header := ⟨BitVec.ofNat 2 k, BitVec.ofNat 6 (payload.length + biasOf p k)⟩, id := id, body := body, checksum := c }))

/-- Rule R79, law 2: a valid frame cut short is TruncatedFrame below 8 bytes and LengthMismatch from 8 on. -/
def Obligations.TruncatedFramesAreRejected : Prop :=
  ∀ p F m s, Accepted p F →
    (m < 8 → execWith p (.decAny (F.take m)) s = .next (withRes s (.err .truncatedFrame .noInfo))) ∧
    (8 ≤ m → m < F.length → execWith p (.decAny (F.take m)) s = .next (withRes s (.err .lengthMismatch .noInfo)))

/-- Rule R79, law 3: every single-bit flip of a valid frame is detected, with the error the flipped bit's place gives,
and so is every other value of the checksum byte. -/
def Obligations.SingleBitErrorsAreDetected : Prop :=
  (∀ p h B s, Accepted p (h :: B) →
    (∀ j, 2 ≤ j → j < 8 → execWith p (.decAny (flipBit (h :: B) 0 j)) s =
      .next (withRes s (.err .lengthMismatch .noInfo))) ∧
    (∀ j, j < 2 → ∃ code info, execWith p (.decAny (flipBit (h :: B) 0 j)) s = .next (withRes s (.err code info)) ∧
      code = (if (h ^^^ (1#8 <<< j)).toNat % 4 = 3 then .unknownMessageKind
        else if biasOf p ((h ^^^ (1#8 <<< j)).toNat % 4) = biasOf p (h.toNat % 4) then .checksumMismatch
        else .lengthMismatch)) ∧
    (∀ j, j < 2 → execWith p (hintedDecoder (h.toNat % 4) (flipBit (h :: B) 0 j)) s = .next (withRes s (
      .err (if (h ^^^ (1#8 <<< j)).toNat % 4 = 3 then .unknownMessageKind else .kindMismatch) .noInfo))) ∧
    (∀ i j, 1 ≤ i → i < B.length + 1 → j < 8 → ∃ expected received, expected ≠ received ∧
      execWith p (.decAny (flipBit (h :: B) i j)) s =
        .next (withRes s (.err .checksumMismatch (.csumPair expected received))))) ∧
  (∀ p B c c' s, Accepted p (B ++ [c]) → c' ≠ c → execWith p (.decAny (B ++ [c'])) s =
    .next (withRes s (.err .checksumMismatch (.csumPair c c'))))

/-- Rule R79, law 4: buffers that differ in reserved bytes only, each with its correct checksum, decode to the same
frame but for the checksum field, which is the received byte (rule R19; log entry 15); encoding the decoded frame
again gives the buffer with zero reserved bytes, the same buffer exactly when its reserved bytes were zero. -/
def Obligations.ReservedBytesAreIgnoredAndReencodedAsZero : Prop :=
  ∀ p h id f2 payload r0 r1 r2 r3 c s t fr,
    execWith p (.decAny (layout h id f2 payload r0 r1 r2 r3 c)) s = .next t → t.res = .rx fr →
    (∀ q0 q1 q2 q3, execWith p
        (.decAny (layout h id f2 payload q0 q1 q2 q3 (byte (byteSum (covered h id f2 payload q0 q1 q2 q3))))) s =
      .next (withRes s (.rx { fr with checksum := byte (byteSum (covered h id f2 payload q0 q1 q2 q3)) }))) ∧
    ∃ G, execWith p fr.encoder t = .next (withRes t (.tx G)) ∧
      G = layout h id f2 payload 0 0 0 0 (byte (byteSum (covered h id f2 payload 0 0 0 0))) ∧
      (G = layout h id f2 payload r0 r1 r2 r3 c ↔ [r0, r1, r2, r3] = [0, 0, 0, 0])

/-- Rule R98: two frames passed as one buffer are not re-framed: LengthMismatch, whatever the second buffer is. -/
def Obligations.ConcatenatedFramesAreNotReframed : Prop :=
  ∀ p F G s, Accepted p F → G ≠ [] →
    execWith p (.decAny (F ++ G)) s = .next (withRes s (.err .lengthMismatch .noInfo))

/-- Rule R10 and decision D14: `to_u8` and `to_i8` are inverse between i8 and u8. -/
def Obligations.SignedByteConversionsAreInverse : Prop :=
  (∀ e : Int, -128 ≤ e → e ≤ 127 → toI8 (toU8 e) = e) ∧
  (∀ b : Byte, toU8 (toI8 b) = b ∧ -128 ≤ toI8 b ∧ toI8 b ≤ 127 ∧ toI8 b = signed b) ∧
  (∀ e : Int, ((toU8 e).toNat : Int) = e % 256)

/-! ## The machine -/

/-- Rules R13 and R39: when the host's next input is a command that decodes to i, a step is i's effect with that input
taken; the operands do not persist (rule R26). -/
def Obligations.StepRunsTheDecodedCommand : Prop :=
  ∀ s c rest i, s.pending = .command c :: rest → decode c = .ok i → step s = exec i { s with pending := rest }

/-- The word of an opcode-table row, issued next with an operand record of zeros, runs as the next step and changes
nothing else of what the host has issued (the model's convention, log entry 14). -/
def Obligations.TableWordsRunAsTheNextStep : Prop :=
  ∀ (s : State) (nbits w : Nat) (i : Instr), decodeTableWord nbits w = some i →
    step (s.withFetchWord nbits w) = exec i s

/-- With nothing issued there is no step (the model's choice, log entry 2). -/
def Obligations.NoCommandNoStep : Prop :=
  ∀ s : State, step s = .refused .noCommandIssued ↔ s.pending = []

/-- Rule R37: commands take effect one at a time in issue order, each seeing ACC and RES as the one before left them,
and (rule R99) each in exactly one step. -/
def Obligations.CommandsTakeEffectInIssueOrder : Prop :=
  ∀ (is : List Instr) (s : State) (rest : List HostEvent), (∀ i ∈ is, i.wellFormed = true) →
    ∃ t : State, execAll is (s.setPending rest) = .next t ∧ t.pending = rest ∧
      core.run is.length (s.setPending (is.map issue ++ rest)) = .next t

/-- Rules R14 and R99: from a state whose inputs are all well-typed, the block takes one step for each and then has
none left; the host that reads after every command has as many observations. -/
def Obligations.SafeStatesRunToTheEnd : Prop :=
  ∀ s : State, s.safe = true → ∃ t, core.run s.pending.length s = .next t ∧ t.pending = [] ∧
    (observations s.pending.length s).length = s.pending.length

/-- The invariant holds after reset, and of the reset state with any well-typed inputs issued. -/
def Obligations.InvariantHoldsAtReset : Prop :=
  BlockInv State.reset ∧ ∀ es : List HostEvent, es.all wellTypedEvent = true → BlockInv (State.reset.setPending es)

/-- Every step keeps the invariant: what RES says of ACC, of the frame it holds, of the decoded record, or of its
error, is true after every step, and the host's remaining inputs stay well-typed. From a state that has it, the block
stops only when nothing is issued. -/
def Obligations.EveryStepKeepsTheInvariant : Prop :=
  ∀ s : State, BlockInv s →
    (∀ t, step s = .next t → BlockInv t) ∧ (s.pending ≠ [] → ∃ t, step s = .next t)

/-- Decisions D11 and D19, I14: an instance is the model but for the operands outside its ports, on which it has no
step; there the model answers InvalidLength, or rejects the frame. That RX_CAP is a limit of `buf` alone, so that an
instance runs an encoder command with a payload longer than RX_CAP, is the model's reading (log entry 7), against the
words of rule R28, which bound every input sequence; the names of the refusals are the model's (log entry 6). -/
def Obligations.InstancesAgreeWithinTheirPortLimits : Prop :=
  (∀ s c rest i p, s.pending = .command c :: rest → decode c = .ok i →
    (portLimit p i = none → instanceStep p s = execWith p i { s with pending := rest }) ∧
    (∀ buf, bufOf i = some buf → p.rxCap < buf.length → instanceStep p s = .refused .beyondRxCap) ∧
    (∀ kind len, i = .hdrEnc kind len → 2 ^ p.lenW ≤ len → instanceStep p s = .refused .beyondLenW)) ∧
  (∀ p i hint B s t fr, p.Legal → decoderFields i = some (hint, B) → p.rxCap < B.length →
    execWith p i s = .next t → t.res ≠ .rx fr) ∧
  (∀ p kind len s, p.Legal → 2 ^ p.lenW ≤ len →
    execWith p (.hdrEnc kind len) s = .next (withRes s (.err .invalidLength .noInfo)))
end

