-- ==== Sys2Proof/Laws/State.lean ====
section
/-! SUPPORT. One lemma per field per update of State, so that no later proof unfolds a record update. -/

namespace Sys2Proof.Machine

@[simp] theorem State.setAcc_acc (v : Byte) (s : State) : (s.setAcc v).acc = v := rfl
@[simp] theorem State.setAcc_res (v : Byte) (s : State) : (s.setAcc v).res = s.res := rfl
@[simp] theorem State.setAcc_pending (v : Byte) (s : State) : (s.setAcc v).pending = s.pending := rfl

@[simp] theorem State.setRes_acc (r : Result) (s : State) : (s.setRes r).acc = s.acc := rfl
@[simp] theorem State.setRes_res (r : Result) (s : State) : (s.setRes r).res = r := rfl
@[simp] theorem State.setRes_pending (r : Result) (s : State) : (s.setRes r).pending = s.pending := rfl
@[simp] theorem State.setRes_setRes (q r : Result) (s : State) : (s.setRes q).setRes r = s.setRes r := rfl
@[simp] theorem State.setRes_status (r : Result) (s : State) : (s.setRes r).status = statusOf r := rfl

@[simp] theorem State.setPending_acc (es : List HostEvent) (s : State) : (s.setPending es).acc = s.acc := rfl
@[simp] theorem State.setPending_res (es : List HostEvent) (s : State) : (s.setPending es).res = s.res := rfl
@[simp] theorem State.setPending_pending (es : List HostEvent) (s : State) : (s.setPending es).pending = es := rfl
@[simp] theorem State.setPending_setPending (es fs : List HostEvent) (s : State) :
    (s.setPending es).setPending fs = s.setPending fs := rfl
@[simp] theorem State.setPending_status (es : List HostEvent) (s : State) : (s.setPending es).status = s.status := rfl

@[simp] theorem State.raise_acc (e : CmdError) (s : State) : (s.raise e).acc = s.acc := rfl
@[simp] theorem State.raise_res (e : CmdError) (s : State) : (s.raise e).res = .err e.code e.info := rfl
@[simp] theorem State.raise_pending (e : CmdError) (s : State) : (s.raise e).pending = s.pending := rfl

@[simp] theorem State.resetBlock_acc (s : State) : s.resetBlock.acc = 0 := rfl
@[simp] theorem State.resetBlock_res (s : State) : s.resetBlock.res = .none := rfl
@[simp] theorem State.resetBlock_pending (s : State) : s.resetBlock.pending = s.pending := rfl

@[simp] theorem State.withFetchWord_acc (s : State) (nbits w : Nat) : (s.withFetchWord nbits w).acc = s.acc := rfl
@[simp] theorem State.withFetchWord_res (s : State) (nbits w : Nat) : (s.withFetchWord nbits w).res = s.res := rfl
@[simp] theorem State.withFetchWord_pending (s : State) (nbits w : Nat) :
    (s.withFetchWord nbits w).pending = .command (tableCommand nbits w) :: s.pending := rfl

end Sys2Proof.Machine
end

