-- ==== Sys2Proof/Laws/Decode.lean ====
section
/-! SUPPORT. Reading operands back: the small lemmas of the decoder and the encoder. -/

namespace Sys2Proof.Laws

theorem readByte_lt (f : OperandField) (n : Nat) (h : n < 256) : readByte f n = .ok (BitVec.ofNat 8 n) := by
  simp [readByte, h]

@[simp] theorem readByte_toNat (f : OperandField) (b : Byte) : readByte f b.toNat = .ok b := by
  simp [readByte, b.isLt]

@[simp] theorem readKind_toNat (k : BitVec 2) : readKind k.toNat = .ok k := by
  simp [readKind, k.isLt]

/-- Reading a sequence succeeds exactly when every number in it is a u8. -/
theorem readBytes_of_lt (f : OperandField) (ns : List Nat) (h : ∀ n ∈ ns, n < 256) :
    readBytes f ns = .ok (ns.map (BitVec.ofNat 8)) := by
  induction ns with
  | nil => rfl
  | cons n ns ih =>
    simp only [List.mem_cons, forall_eq_or_imp] at h
    simp [readBytes, readByte_lt f n h.1, ih h.2]

theorem readBytes_ill (f : OperandField) (ns : List Nat) (h : ¬ ∀ n ∈ ns, n < 256) :
    readBytes f ns = .error f := by
  induction ns with
  | nil => simp at h
  | cons n ns ih =>
    unfold readBytes
    by_cases hn : n < 256
    · have : ¬ ∀ m ∈ ns, m < 256 := fun hs => h (by simpa [hn] using hs)
      simp [readByte_lt f n hn, ih this]
    · simp [readByte, hn]

@[simp] theorem readBytes_writeBytes (f : OperandField) (bs : List Byte) : readBytes f (writeBytes bs) = .ok bs := by
  induction bs with
  | nil => rfl
  | cons b bs ih =>
    have ih' : readBytes f (bs.map BitVec.toNat) = .ok bs := ih
    simp [writeBytes, readBytes, ih']

/-- The command map has no row for exactly the words rule R43 lists. -/
theorem selectOp_eq_none (c : Byte) : selectOp c = none ↔ isIllegalWord c = true := by
  revert c; decide

/-- No two rows of the command map have the same word, so a word selects one row at most (rule R43). -/
theorem commandMap_words_distinct : (commandMap.map Prod.fst).Pairwise (· ≠ ·) := by decide

/-- A word selects a row exactly when the pair is in the map. -/
theorem selectOp_eq_some (c : Byte) (op : Op) : selectOp c = some op ↔ (c, op) ∈ commandMap := by
  cases op <;> revert c <;> decide

theorem decode_of_row {c : Byte} {op : Op} (h : selectOp c = some op) (o : Operands) :
    decode ⟨c, o⟩ = readOperands op o := by
  simp [decode, h]

theorem decode_of_no_row {c : Byte} (h : selectOp c = none) (o : Operands) : decode ⟨c, o⟩ = .ok (.illegal c) := by
  simp [decode, h]

/-- All a decode can answer: the row's operands read, or the illegal command (rules R43, R44). -/
theorem decode_cases (c : Command) :
    (∃ op, (c.cmd, op) ∈ commandMap ∧ decode c = readOperands op c.ops) ∨
    (isIllegalWord c.cmd = true ∧ decode c = .ok (.illegal c.cmd)) := by
  obtain ⟨w, o⟩ := c
  cases h : selectOp w with
  | some op => exact .inl ⟨op, (selectOp_eq_some w op).1 h, decode_of_row h o⟩
  | none => exact .inr ⟨(selectOp_eq_none w).1 h, decode_of_no_row h o⟩

theorem readByte_ok_iff (f : OperandField) (n : Nat) (b : Byte) :
    readByte f n = .ok b ↔ n < 256 ∧ b = BitVec.ofNat 8 n := by
  unfold readByte
  split
  · exact ⟨fun h => ⟨by assumption, (Except.ok.inj h).symm⟩, fun h => by rw [h.2]⟩
  · exact ⟨fun h => (nomatch h), fun h => absurd h.1 (by assumption)⟩

theorem readKind_ok_iff (n : Nat) (k : BitVec 2) : readKind n = .ok k ↔ n < 4 ∧ k = BitVec.ofNat 2 n := by
  unfold readKind
  split
  · exact ⟨fun h => ⟨by assumption, (Except.ok.inj h).symm⟩, fun h => by rw [h.2]⟩
  · exact ⟨fun h => (nomatch h), fun h => absurd h.1 (by assumption)⟩

theorem isI8_iff (e : Int) : isI8 e = true ↔ -128 ≤ e ∧ e ≤ 127 := by simp [isI8]

theorem readError_ok_iff (e e' : Int) : readError e = .ok e' ↔ (-128 ≤ e ∧ e ≤ 127) ∧ e' = e := by
  rw [← isI8_iff]
  unfold readError
  split
  · exact ⟨fun h => ⟨by assumption, (Except.ok.inj h).symm⟩, fun h => by rw [h.2]⟩
  · exact ⟨fun h => (nomatch h), fun h => absurd h.1 (by assumption)⟩

theorem readBytes_ok_iff (f : OperandField) (ns : List Nat) (bs : List Byte) :
    readBytes f ns = .ok bs ↔ (∀ n ∈ ns, n < 256) ∧ bs = ns.map (BitVec.ofNat 8) := by
  by_cases h : ∀ n ∈ ns, n < 256
  · rw [readBytes_of_lt f ns h]
    exact ⟨fun e => ⟨h, (Except.ok.inj e).symm⟩, fun e => by rw [e.2]⟩
  · rw [readBytes_ill f ns h]
    exact ⟨fun e => (nomatch e), fun e => absurd e.1 h⟩

/-- Peels a bind of two operand reads. -/
theorem bind_ok_iff {α β : Type} (x : Except OperandField α) (f : α → Except OperandField β) (b : β) :
    (x >>= f) = .ok b ↔ ∃ a, x = .ok a ∧ f a = .ok b := by
  cases x <;> simp [bind, Except.bind]

theorem map_ok_iff {α β : Type} (f : α → β) (x : Except OperandField α) (b : β) :
    (f <$> x) = .ok b ↔ ∃ a, x = .ok a ∧ f a = b := by
  cases x <;> simp [Functor.map, Except.map]

theorem pure_ok_iff {α : Type} (a b : α) : (pure a : Except OperandField α) = .ok b ↔ a = b := by
  simp [pure, Except.pure]

/-- Everything reading a row's operands can answer with success (rules R14, R41, R42). -/
theorem readOperands_ok_iff (op : Op) (o : Operands) (i : Instr) :
    readOperands op o = .ok i ↔
      match op with
      | .hdrEnc  => o.kind < 4 ∧ i = .hdrEnc (BitVec.ofNat 2 o.kind) o.len
      | .hdrDec  => o.h < 256 ∧ i = .hdrDec (BitVec.ofNat 8 o.h)
      | .encReq  => (o.id < 256 ∧ o.subtype < 256 ∧ ∀ n ∈ o.payload, n < 256) ∧
          i = .encReq (BitVec.ofNat 8 o.id) (BitVec.ofNat 8 o.subtype) (o.payload.map (BitVec.ofNat 8))
      | .encRsp  => (o.id < 256 ∧ (-128 ≤ o.error ∧ o.error ≤ 127) ∧ ∀ n ∈ o.payload, n < 256) ∧
          i = .encRsp (BitVec.ofNat 8 o.id) o.error (o.payload.map (BitVec.ofNat 8))
      | .encNtf  => (o.id < 256 ∧ o.event < 256 ∧ ∀ n ∈ o.payload, n < 256) ∧
          i = .encNtf (BitVec.ofNat 8 o.id) (BitVec.ofNat 8 o.event) (o.payload.map (BitVec.ofNat 8))
      | .decReq  => (∀ n ∈ o.buf, n < 256) ∧ i = .decReq (o.buf.map (BitVec.ofNat 8))
      | .decRsp  => (∀ n ∈ o.buf, n < 256) ∧ i = .decRsp (o.buf.map (BitVec.ofNat 8))
      | .decNtf  => (∀ n ∈ o.buf, n < 256) ∧ i = .decNtf (o.buf.map (BitVec.ofNat 8))
      | .decAny  => (∀ n ∈ o.buf, n < 256) ∧ i = .decAny (o.buf.map (BitVec.ofNat 8))
      | .csumClr => i = .csumClr
      | .csumAdd => o.b < 256 ∧ i = .csumAdd (BitVec.ofNat 8 o.b)
      | .csumBuf => (∀ n ∈ o.buf, n < 256) ∧ i = .csumBuf (o.buf.map (BitVec.ofNat 8)) := by
  cases op <;> simp only [readOperands, bind_ok_iff, pure_ok_iff]
  case hdrEnc =>
    constructor
    · rintro ⟨k, hk, rfl⟩; exact ⟨((readKind_ok_iff _ _).1 hk).1, by rw [((readKind_ok_iff _ _).1 hk).2]⟩
    · rintro ⟨h, rfl⟩; exact ⟨_, (readKind_ok_iff _ _).2 ⟨h, rfl⟩, rfl⟩
  case hdrDec =>
    constructor
    · rintro ⟨b, hb, rfl⟩; exact ⟨((readByte_ok_iff _ _ _).1 hb).1, by rw [((readByte_ok_iff _ _ _).1 hb).2]⟩
    · rintro ⟨h, rfl⟩; exact ⟨_, (readByte_ok_iff _ _ _).2 ⟨h, rfl⟩, rfl⟩
  case csumAdd =>
    constructor
    · rintro ⟨b, hb, rfl⟩; exact ⟨((readByte_ok_iff _ _ _).1 hb).1, by rw [((readByte_ok_iff _ _ _).1 hb).2]⟩
    · rintro ⟨h, rfl⟩; exact ⟨_, (readByte_ok_iff _ _ _).2 ⟨h, rfl⟩, rfl⟩
  case csumClr => exact ⟨fun h => (Except.ok.inj h).symm, fun h => by rw [h]⟩
  case encReq =>
    constructor
    · rintro ⟨a, ha, b, hb, c, hc, rfl⟩
      obtain ⟨ka, rfl⟩ := (readByte_ok_iff _ _ _).1 ha
      obtain ⟨kb, rfl⟩ := (readByte_ok_iff _ _ _).1 hb
      obtain ⟨kc, rfl⟩ := (readBytes_ok_iff _ _ _).1 hc
      exact ⟨⟨ka, kb, kc⟩, rfl⟩
    · rintro ⟨⟨ha, hb, hc⟩, rfl⟩
      exact ⟨_, readByte_lt _ _ ha, _, readByte_lt _ _ hb, _, readBytes_of_lt _ _ hc, rfl⟩
  case encNtf =>
    constructor
    · rintro ⟨a, ha, b, hb, c, hc, rfl⟩
      obtain ⟨ka, rfl⟩ := (readByte_ok_iff _ _ _).1 ha
      obtain ⟨kb, rfl⟩ := (readByte_ok_iff _ _ _).1 hb
      obtain ⟨kc, rfl⟩ := (readBytes_ok_iff _ _ _).1 hc
      exact ⟨⟨ka, kb, kc⟩, rfl⟩
    · rintro ⟨⟨ha, hb, hc⟩, rfl⟩
      exact ⟨_, readByte_lt _ _ ha, _, readByte_lt _ _ hb, _, readBytes_of_lt _ _ hc, rfl⟩
  case encRsp =>
    constructor
    · rintro ⟨a, ha, b, hb, c, hc, rfl⟩
      obtain ⟨ka, rfl⟩ := (readByte_ok_iff _ _ _).1 ha
      obtain ⟨kb, rfl⟩ := (readError_ok_iff _ _).1 hb
      obtain ⟨kc, rfl⟩ := (readBytes_ok_iff _ _ _).1 hc
      exact ⟨⟨ka, kb, kc⟩, rfl⟩
    · rintro ⟨⟨ha, hb, hc⟩, rfl⟩
      exact ⟨_, readByte_lt _ _ ha, _, (readError_ok_iff _ _).2 ⟨hb, rfl⟩, _, readBytes_of_lt _ _ hc, rfl⟩
  all_goals
    constructor
    · rintro ⟨a, ha, rfl⟩
      obtain ⟨ka, rfl⟩ := (readBytes_ok_iff _ _ _).1 ha
      exact ⟨ka, rfl⟩
    · rintro ⟨ha, rfl⟩
      exact ⟨_, readBytes_of_lt _ _ ha, rfl⟩

end Sys2Proof.Laws
end

