-- ==== Sys2Proof/Laws/Ops.lean ====
section
/-! SUPPORT. One lemma per shared operation: everything it can do, said once. -/

namespace Sys2Proof.Laws

open Sys2Proof.Machine

/-- The value RES takes at the end of a command. -/
def resultOf {α : Type} (result : α → Result) (outcome : Except CmdError α) : Result :=
  match outcome with
  | .ok a    => result a
  | .error e => .err e.code e.info

@[simp] theorem resultOf_ok {α : Type} (f : α → Result) (a : α) : resultOf f (.ok a) = f a := rfl
@[simp] theorem resultOf_error {α : Type} (f : α → Result) (e : CmdError) :
    resultOf f (.error e) = .err e.code e.info := rfl

/-- The end of a command that is no checksum command: a next state in which RES alone has changed. -/
theorem finish_next {α : Type} (f : α → Result) (o : Except CmdError α) (s : State) :
    finish f o s = .next (s.setRes (resultOf f o)) := by
  cases o <;> rfl

/-- Raising an error changes RES alone. -/
theorem raise_eq_setRes (e : CmdError) (s : State) : s.raise e = s.setRes (.err e.code e.info) := rfl

/-- The end of a checksum command. -/
theorem finishCsum_next (a : Byte) (s : State) : finishCsum a s = .next ⟨a, .csum a, s.pending⟩ := rfl

/-- A meaning of the machine is the parametric meaning at this hardware's parameters, unit by unit. -/
theorem execHdrEnc_eq (kind : BitVec 2) (len : Nat) (s : State) :
    execHdrEnc kind len s = hdrEncWith Config.params kind len s := rfl

theorem execHdrDec_eq (h : Byte) (s : State) : execHdrDec h s = hdrDecWith Config.params h s := rfl

theorem lenBias_params (k : MessageKind) : Config.params.lenBias k = 0 := by cases k <;> rfl

theorem permitKind3_params : Config.params.permitKind3 = false := rfl

/-- The kind a 2-bit tag names has that tag. -/
theorem kindOfBits_eq_some (b : BitVec 2) (k : MessageKind) : kindOfBits b = some k ↔ b = kindBits k := by
  cases k <;> revert b <;> decide

/-- The reserved tag is the only one that names no kind. -/
theorem kindOfBits_eq_none (b : BitVec 2) : kindOfBits b = none ↔ b = 3#2 := by revert b; decide

theorem kindOfBits_kindBits (k : MessageKind) : kindOfBits (kindBits k) = some k := by cases k <;> decide

@[simp] theorem memWrite_eq (O v : List Byte) : memWrite O v = O ++ v := rfl

@[simp] theorem zeros_length (n : Nat) : (zeros n).length = n := by simp [zeros]

/-- A read has the length it asks for: it is never cut short by the end of the operand (rule R32). -/
theorem memRead_length (B : List Byte) (i n : Nat) (h : i + n ≤ B.length) : (memRead B i n h).length = n := by
  simp only [memRead, List.length_take, List.length_drop]; omega

/-- A read of one byte is the byte at that index. -/
theorem memReadByte_eq_getElem (B : List Byte) (i : Nat) (h : i + 1 ≤ B.length) :
    memReadByte B i h = B[i]'(by omega) := rfl

theorem sum8_nil : sum8 [] = 0 := rfl

/-- One more byte at the front. -/
theorem sum8_cons (b : Byte) (B : List Byte) : sum8 (b :: B) = b + sum8 B := by
  apply BitVec.eq_of_toNat_eq
  simp [sum8, BitVec.toNat_add]

/-- The bytes of a frame, written out: header, fixed fields, payload, reserved zeros, and the sum of all of them. -/
theorem frameBytes_eq (k : MessageKind) (L : Nat) (id f2 : Byte) (payload : List Byte) :
    frameBytes k L id f2 payload =
      (packHeader (kindBits k) L :: id :: f2 :: (payload ++ [0, 0, 0, 0])) ++
        [sum8 (packHeader (kindBits k) L :: id :: f2 :: (payload ++ [0, 0, 0, 0]))] := by
  simp [frameBytes, zeros, Config.reservedLen]

/-- All an encode can answer. -/
theorem encodeFrame_cases (p : Params) (k : MessageKind) (id f2 : Byte) (payload : List Byte) :
    (63 < payload.length + p.lenBias k ∧
      encodeFrame p k id f2 payload = .error ⟨.payloadTooLarge, .noInfo⟩) ∨
    (payload.length + p.lenBias k ≤ 63 ∧
      encodeFrame p k id f2 payload = .ok (frameBytes k (payload.length + p.lenBias k) id f2 payload)) := by
  unfold encodeFrame
  split
  · exact .inl ⟨by assumption, rfl⟩
  · exact .inr ⟨by simp only [Config.lenMax] at *; omega, rfl⟩

/-- All a pack can answer. -/
theorem packedHeader_cases (p : Params) (kind : BitVec 2) (len : Nat) :
    (63 < len ∧ packedHeader p kind len = .error ⟨.invalidLength, .noInfo⟩) ∨
    (len ≤ 63 ∧ kind = 3#2 ∧ p.permitKind3 = false ∧
      packedHeader p kind len = .error ⟨.unknownMessageKind, .noInfo⟩) ∨
    (len ≤ 63 ∧ ¬ (kind = 3#2 ∧ p.permitKind3 = false) ∧ packedHeader p kind len = .ok (packHeader kind len)) := by
  unfold packedHeader
  split
  · exact .inl ⟨by assumption, rfl⟩
  · split
    · exact .inr (.inl ⟨by simp only [Config.lenMax] at *; omega, by tauto, by tauto, rfl⟩)
    · exact .inr (.inr ⟨by simp only [Config.lenMax] at *; omega, by assumption, rfl⟩)

end Sys2Proof.Laws
end

