-- ==== Sys2Proof/Laws/PerInstr.lean ====
section
/-! SUPPORT. The per-instruction family of LAWS.json: the word an instruction is encoded with. -/

namespace Sys2Proof.Laws.EncodedWord

/-- The encoder's command word for a well-formed instruction is in the command map unless the instruction is the
illegal command, and in the map it names the row whose operands the instruction carries (30_encoding.md rule R42). -/
def Statement (i : Instr) : Prop :=
  i.wellFormed = true →
    match selectOp (encode i).cmd, i with
    | some .hdrEnc, .hdrEnc _ _     => True
    | some .hdrDec, .hdrDec _       => True
    | some .encReq, .encReq _ _ _   => True
    | some .encRsp, .encRsp _ _ _   => True
    | some .encNtf, .encNtf _ _ _   => True
    | some .decReq, .decReq _       => True
    | some .decRsp, .decRsp _       => True
    | some .decNtf, .decNtf _       => True
    | some .decAny, .decAny _       => True
    | some .csumClr, .csumClr       => True
    | some .csumAdd, .csumAdd _     => True
    | some .csumBuf, .csumBuf _     => True
    | none, .illegal _              => True
    | _, _                          => False

theorem hdrEnc (kind : BitVec 2) (len : Nat) : Statement (.hdrEnc kind len) := fun _ => trivial
theorem hdrDec (h : Byte) : Statement (.hdrDec h) := fun _ => trivial
theorem encReq (id subtype : Byte) (payload : List Byte) : Statement (.encReq id subtype payload) := fun _ => trivial
theorem encRsp (id : Byte) (error : Int) (payload : List Byte) : Statement (.encRsp id error payload) := fun _ => trivial
theorem encNtf (id event : Byte) (payload : List Byte) : Statement (.encNtf id event payload) := fun _ => trivial
theorem decReq (buf : List Byte) : Statement (.decReq buf) := fun _ => trivial
theorem decRsp (buf : List Byte) : Statement (.decRsp buf) := fun _ => trivial
theorem decNtf (buf : List Byte) : Statement (.decNtf buf) := fun _ => trivial
theorem decAny (buf : List Byte) : Statement (.decAny buf) := fun _ => trivial
theorem csumClr : Statement .csumClr := fun _ => trivial
theorem csumAdd (b : Byte) : Statement (.csumAdd b) := fun _ => trivial
theorem csumBuf (buf : List Byte) : Statement (.csumBuf buf) := fun _ => trivial
theorem illegal (cmd : Byte) : Statement (.illegal cmd) := by
  intro h
  have hw : selectOp cmd = none := (selectOp_eq_none cmd).2 h
  simp [encode, hw]

end Sys2Proof.Laws.EncodedWord
end

