-- ==== Sys2Proof/Laws/Step.lean ====
section
/-! SUPPORT. What a step can do, said once, and how a run unrolls. -/

namespace Sys2Proof.Laws

open Sys2Proof.Machine

/-- A step that answers a next state took either a reset event or a command that decodes. -/
theorem step_next_cases {s t : State} (h : step s = .next t) :
    (∃ rest, s.pending = .reset :: rest ∧ t = (s.setPending rest).resetBlock) ∨
    (∃ c rest i, s.pending = .command c :: rest ∧ decode c = .ok i ∧ exec i (s.setPending rest) = .next t) := by
  unfold step at h
  split at h
  · cases h
  · next rest hp => exact .inl ⟨rest, hp, by cases h; rfl⟩
  · next c rest hp =>
    split at h
    · next i hd => exact .inr ⟨c, rest, i, hp, hd, h⟩
    · cases h

/-- A step that stops with a fault met a command whose operands are not well-typed. -/
theorem step_fault_cases {s : State} {f : Fault} (hexec : ∀ i t, exec i t ≠ .fault f) (h : step s = .fault f) :
    ∃ c rest field, s.pending = .command c :: rest ∧ decode c = .error field ∧ f = .illTypedOperand field := by
  unfold step at h
  split at h
  · cases h
  · cases h
  · next c rest hp =>
    split at h
    · exact absurd h (hexec _ _)
    · next field hd => exact ⟨c, rest, field, hp, hd, by cases h; rfl⟩

theorem run_zero (s : State) : core.run 0 s = .next s := rfl

/-- A run unrolls at its first step. -/
theorem run_succ_of_next {s t : State} (n : Nat) (h : step s = .next t) : core.run (n + 1) s = core.run n t := by
  have hc : core.step s = .next t := h
  simp only [Host.Core.run, hc]

theorem observations_succ_of_next {s t : State} (n : Nat) (h : step s = .next t) :
    observations (n + 1) s = t.observe :: observations n t := by
  simp only [observations, h]

end Sys2Proof.Laws
end

