-- ==== Sys2Proof/Tests/Slice0.lean ====
section
/-! SUPPORT. Tests. Expected values come from spec/95_test_vectors.md (V-*), the corner cases of the command rules, or
the words of 30_encoding.md rules R40 to R42; the witnesses meet the hypotheses of the obligations at boundary values. -/

namespace Sys2Proof.Tests

open Sys2Proof.Machine Sys2Proof.Claims

/-- A small state: ACC given, RES = NONE, nothing issued. -/
def st (acc : Byte) : State := { State.reset with acc := acc }

/-- The state with one command issued. -/
def issued (acc : Byte) (c : Command) : State := { State.reset with acc := acc, pending := [.command c] }

/-- The state an outcome answers, if any. -/
def nextOf : Host.Outcome State Fault Refusal → Option State
  | .next t    => some t
  | .fault _   => none
  | .refused _ => none

/-- ACC, RES and STATUS after an outcome. -/
def seen (o : Host.Outcome State Fault Refusal) : Option Observation := (nextOf o).map State.observe

/-- This hardware's parameters, but for `PERMIT_KIND3 = true`. -/
def permitting : Params := { Config.params with permitKind3 := true }

/-- A configuration with a bias for Responses, the smallest ports rule R6 allows. -/
def biased : Params where
  biasRequest := 0
  biasResponse := 2
  biasNotification := 0
  permitKind3 := false
  lenW := 7
  rxCap := 71

/-- Scenario A's payload (V-A1). -/
def payloadA : List Byte := [0x42, 0x50, 0x31, 0x32, 0x33, 0x34, 0x35, 0x36]

/-- Scenario A's frame (V-A1). -/
def frameA : List Byte := [0x20, 0x01, 0x00, 0x42, 0x50, 0x31, 0x32, 0x33, 0x34, 0x35, 0x36, 0x00, 0x00, 0x00, 0x00, 0xE8]

/-- Scenario A's decoded frame (V-A1). -/
def decodedA : DecodedFrame := ⟨⟨0, 8⟩, 0x01, .request 0x00 payloadA, 0xE8⟩

/-- Scenario B's frame (V-B1). -/
def frameB : List Byte := [0x02, 0x00, 0x00, 0x00, 0x00, 0x00, 0x00, 0x02]

/-- An operand record with every field at the top of its type, `error` at the bottom. -/
def edgeOps : Operands where
  kind := 3
  len := 64
  h := 255
  b := 255
  id := 255
  subtype := 255
  error := -128
  event := 255
  payload := [255, 0]
  buf := [255, 0]

/-! ## Well-formedness -/

/-- `error` is an i8 (00_scope.md rule R8). -/
theorem test_wellFormed_refuses_error_above_127 : (Instr.encRsp 5 128 []).wellFormed = false := by decide

theorem test_wellFormed_refuses_error_below_minus_128 : (Instr.encRsp 5 (-129) []).wellFormed = false := by decide

theorem test_wellFormed_accepts_i8_bounds :
    (Instr.encRsp 5 (-128) []).wellFormed = true ∧ (Instr.encRsp 5 127 []).wellFormed = true := by decide

/-- A word of the command map is no illegal word (30_encoding.md rule R43). -/
theorem test_wellFormed_refuses_illegal_of_a_mapped_word :
    (Instr.illegal 0x01).wellFormed = false ∧ (Instr.illegal 0x0E).wellFormed = false := by decide

theorem test_wellFormed_accepts_illegal_words :
    (Instr.illegal 0x07).wellFormed = true ∧ (Instr.illegal 0x10).wellFormed = true := by decide

/-- Ill-typed operands (93_implementation_defined.md I15): a kind, a byte, an error and a buffer out of range. -/
theorem test_decode_refuses_ill_typed_operands_by_field :
    decode ⟨0x01, { edgeOps with kind := 4 }⟩ = .error .kind ∧
    decode ⟨0x0D, { edgeOps with b := 256 }⟩ = .error .b ∧
    decode ⟨0x05, { edgeOps with error := 128 }⟩ = .error .error ∧
    decode ⟨0x08, { edgeOps with buf := [0, 256] }⟩ = .error .buf := ⟨rfl, rfl, rfl, rfl⟩

/-! ## Decoding, the words written as Z_GRP_SEL (30_encoding.md rule R40), the rows of rule R42 -/

theorem test_decode_hdrEnc : decode ⟨0b0000_00_01, { edgeOps with kind := 2, len := 5 }⟩ = .ok (.hdrEnc 2 5) := rfl
theorem test_decode_hdrDec : decode ⟨0b0000_00_10, { edgeOps with h := 0x16 }⟩ = .ok (.hdrDec 0x16) := rfl
theorem test_decode_encReq :
    decode ⟨0b0000_01_00, { edgeOps with id := 1, subtype := 9, payload := [0x42] }⟩ = .ok (.encReq 1 9 [0x42]) := rfl
theorem test_decode_encRsp :
    decode ⟨0b0000_01_01, { edgeOps with id := 5, error := -1, payload := [7] }⟩ = .ok (.encRsp 5 (-1) [7]) := rfl
theorem test_decode_encNtf :
    decode ⟨0b0000_01_10, { edgeOps with id := 0x10, event := 1, payload := [0xAA] }⟩ = .ok (.encNtf 0x10 1 [0xAA]) := rfl
theorem test_decode_decReq : decode ⟨0b0000_10_00, edgeOps⟩ = .ok (.decReq [255, 0]) := rfl
theorem test_decode_decRsp : decode ⟨0b0000_10_01, edgeOps⟩ = .ok (.decRsp [255, 0]) := rfl
theorem test_decode_decNtf : decode ⟨0b0000_10_10, edgeOps⟩ = .ok (.decNtf [255, 0]) := rfl
theorem test_decode_decAny : decode ⟨0b0000_10_11, edgeOps⟩ = .ok (.decAny [255, 0]) := rfl
theorem test_decode_csumClr : decode ⟨0b0000_11_00, edgeOps⟩ = .ok .csumClr := rfl
theorem test_decode_csumAdd : decode ⟨0b0000_11_01, edgeOps⟩ = .ok (.csumAdd 0xFF) := rfl
theorem test_decode_csumBuf : decode ⟨0b0000_11_10, edgeOps⟩ = .ok (.csumBuf [255, 0]) := rfl

/-- V-X1 to V-X4: the free slots of the groups, and words with a non-zero Z field. -/
theorem test_decode_illegal :
    decode ⟨0b0000_00_00, edgeOps⟩ = .ok (.illegal 0x00) ∧ decode ⟨0b0000_00_11, edgeOps⟩ = .ok (.illegal 0x03) ∧
    decode ⟨0b0000_01_11, edgeOps⟩ = .ok (.illegal 0x07) ∧ decode ⟨0b0000_11_11, edgeOps⟩ = .ok (.illegal 0x0F) ∧
    decode ⟨0b0001_11_00, edgeOps⟩ = .ok (.illegal 0x1C) ∧ decode ⟨0b1111_11_11, edgeOps⟩ = .ok (.illegal 0xFF) :=
  ⟨rfl, rfl, rfl, rfl, rfl, rfl⟩

/-- The table's numbering: the word's 8 bits, operands of zeros; a longer word is no command word. -/
theorem test_decodeTableWord :
    decodeTableWord 8 0x0D = some (.csumAdd 0) ∧ decodeTableWord 8 0xFF = some (.illegal 0xFF) ∧
    decodeTableWord 16 0x10D = none := by decide

/-! ## One step each -/

/-- V-H8: the kind in the low 2 bits, the length above. -/
theorem test_hdrEnc_packs : seen (exec (.hdrEnc 2 5) (st 0x11)) = some ⟨0x11, .hdrByte 0x16, 0x80⟩ := by decide

/-- V-H12 and V-H13: the length is checked before the kind, and kind 3 packs where it is permitted. -/
theorem test_hdrEnc_kind_three :
    seen (exec (.hdrEnc 3 64) (st 0)) = some ⟨0, .err .invalidLength .noInfo, 0x81⟩ ∧
    seen (exec (.hdrEnc 3 5) (st 0)) = some ⟨0, .err .unknownMessageKind .noInfo, 0x83⟩ ∧
    seen (execWith permitting (.hdrEnc 3 5) (st 0)) = some ⟨0, .hdrByte 0x17, 0x80⟩ := by decide

/-- V-H16. -/
theorem test_hdrDec_unpacks : seen (exec (.hdrDec 0xFD) (st 0x11)) = some ⟨0x11, .hdrFields 1 63, 0x80⟩ := by decide

/-- V-H23, with and without the permission. -/
theorem test_hdrDec_kind_three :
    seen (exec (.hdrDec 0x17) (st 0)) = some ⟨0, .err .unknownMessageKind .noInfo, 0x83⟩ ∧
    seen (execWith permitting (.hdrDec 0x17) (st 0)) = some ⟨0, .hdrFields 3 5, 0x80⟩ := by decide

/-- V-C1. -/
theorem test_csumClr : seen (exec .csumClr (st 0x5A)) = some ⟨0x00, .csum 0x00, 0x80⟩ := by decide

/-- V-C2. -/
theorem test_csumAdd : seen (exec (.csumAdd 0x42) (st 0x21)) = some ⟨0x63, .csum 0x63, 0x80⟩ := by decide

/-- V-C5: the carry is lost. -/
theorem test_csumAdd_wraps : seen (exec (.csumAdd 0xFF) (st 0xFF)) = some ⟨0xFE, .csum 0xFE, 0x80⟩ := by decide

/-- V-C13: scenario A's body; the old ACC does not count. -/
theorem test_csumBuf : seen (exec (.csumBuf (frameA.take 15)) (st 0x77)) = some ⟨0xE8, .csum 0xE8, 0x80⟩ := by decide

/-- V-C7. -/
theorem test_csumBuf_empty : seen (exec (.csumBuf []) (st 0x77)) = some ⟨0x00, .csum 0x00, 0x80⟩ := by decide

/-- V-E1. -/
theorem test_encReq : seen (exec (.encReq 1 0 payloadA) (st 0x77)) = some ⟨0x77, .tx frameA, 0x80⟩ := by decide

/-- V-E6. -/
theorem test_encReq_too_large :
    seen (exec (.encReq 0 0 (zeros 64)) (st 0)) = some ⟨0, .err .payloadTooLarge .noInfo, 0x82⟩ := by decide

/-- V-E3: the error byte is two's complement. -/
theorem test_encRsp : seen (exec (.encRsp 0x7F (-128) [0x01, 0x02, 0x03]) (st 0)) =
    some ⟨0, .tx [0x0D, 0x7F, 0x80, 0x01, 0x02, 0x03, 0x00, 0x00, 0x00, 0x00, 0x12], 0x80⟩ := by decide

/-- V-E10. -/
theorem test_encRsp_too_large :
    seen (exec (.encRsp 0 0 (rep 64 0x01)) (st 0)) = some ⟨0, .err .payloadTooLarge .noInfo, 0x82⟩ := by decide

/-- V-E4. -/
theorem test_encNtf : seen (exec (.encNtf 0x10 1 [0xAA]) (st 0)) =
    some ⟨0, .tx [0x06, 0x10, 0x01, 0xAA, 0x00, 0x00, 0x00, 0x00, 0xC1], 0x80⟩ := by decide

/-- V-E9: the `Max` event, and a checksum that wraps to 0. -/
theorem test_encNtf_max : seen (exec (.encNtf 0xFF 0xFF []) (st 0)) =
    some ⟨0, .tx [0x02, 0xFF, 0xFF, 0x00, 0x00, 0x00, 0x00, 0x00], 0x80⟩ := by decide

/-- V-D15: reserved bytes `00 00 00 07`, not validated. -/
theorem test_decReq : seen (exec (.decReq [0x00, 0x01, 0x00, 0x00, 0x00, 0x00, 0x07, 0x08]) (st 0)) =
    some ⟨0, .rx ⟨⟨0, 0⟩, 0x01, .request 0x00 [], 0x08⟩, 0x80⟩ := by decide

/-- V-D17: byte 12 changed; expected and received are reported in this order. -/
theorem test_decReq_checksum : seen (exec (.decReq (frameA.set 12 0x5A)) (st 0)) =
    some ⟨0, .err .checksumMismatch (.csumPair 0x42 0xE8), 0x86⟩ := by decide

/-- V-D18. -/
theorem test_decRsp : seen (exec (.decRsp [0x0D, 0x7F, 0x80, 0x01, 0x02, 0x03, 0x00, 0x00, 0x00, 0x00, 0x12]) (st 0)) =
    some ⟨0, .rx ⟨⟨1, 3⟩, 0x7F, .response (-128) [0x01, 0x02, 0x03], 0x12⟩, 0x80⟩ := by decide

/-- V-D9: the hint is checked before the checksum. -/
theorem test_decRsp_kind_before_checksum :
    seen (exec (.decRsp (frameA.set 15 0x00)) (st 0)) = some ⟨0, .err .kindMismatch .noInfo, 0x87⟩ := by decide

/-- V-D20. -/
theorem test_decNtf : seen (exec (.decNtf [0x06, 0x10, 0x01, 0xAA, 0x00, 0x00, 0x00, 0x00, 0xC1]) (st 0)) =
    some ⟨0, .rx ⟨⟨2, 1⟩, 0x10, .notification 0x01 [0xAA], 0xC1⟩, 0x80⟩ := by decide

/-- V-B1: the checksum altered by +1. -/
theorem test_decNtf_altered : seen (exec (.decNtf (frameB.set 7 0x03)) (st 0xC3)) =
    some ⟨0xC3, .err .checksumMismatch (.csumPair 0x02 0x03), 0x86⟩ := by decide

/-- V-D19. -/
theorem test_decAny : seen (exec (.decAny [0x01, 0x05, 0xFF, 0x00, 0x00, 0x00, 0x00, 0x05]) (st 0)) =
    some ⟨0, .rx ⟨⟨1, 0⟩, 0x05, .response (-1) [], 0x05⟩, 0x80⟩ := by decide

/-- V-D6 and V-D7: truncation before the kind, the kind before the length. -/
theorem test_decAny_priority :
    seen (exec (.decAny (rep 7 0x03)) (st 0)) = some ⟨0, .err .truncatedFrame .noInfo, 0x84⟩ ∧
    seen (exec (.decAny (0xFF :: zeros 7)) (st 0)) = some ⟨0, .err .unknownMessageKind .noInfo, 0x83⟩ := by decide

/-- V-X1. -/
theorem test_illegal : seen (exec (.illegal 0x00) (st 0x42)) = some ⟨0x42, .err .illegalCommand .noInfo, 0x88⟩ := by
  decide

/-- V-R1. -/
theorem test_reset : State.reset.observe = ⟨0x00, .none, 0x00⟩ ∧
    seen (exec (.csumAdd 0x10) State.reset) = some ⟨0x10, .csum 0x10, 0x80⟩ := by decide

/-- A table word is the next instruction, and the first after reset (the model's convention, log entry 14). -/
theorem test_withFetchWord : seen (step (State.reset.withFetchWord 8 0x0C)) = some ⟨0x00, .csum 0x00, 0x80⟩ := by decide

/-! ## Witnesses -/

/-- CommandWordsDecodeByTheMap, the commands' own statements, DecodedCommandsAreWellFormed: operands at their bounds. -/
theorem witness_operands_at_their_bounds :
    edgeOps.kind < 4 ∧ edgeOps.h < 256 ∧ edgeOps.b < 256 ∧ edgeOps.id < 256 ∧ edgeOps.subtype < 256 ∧
    -128 ≤ edgeOps.error ∧ edgeOps.error ≤ 127 ∧ edgeOps.event < 256 ∧ (∀ n ∈ edgeOps.payload, n < 256) ∧
    (∀ n ∈ edgeOps.buf, n < 256) ∧ edgeOps.WellTyped := by decide

theorem witness_error_at_its_upper_bound :
    -128 ≤ ({ edgeOps with error := 127 } : Operands).error ∧ ({ edgeOps with error := 127 } : Operands).error ≤ 127 := by
  decide

/-- CommandFieldsSelectUnitAndKind: a non-zero Z field, the last row, and the decoder with no hint. -/
theorem witness_fields :
    (decode ⟨0x10, edgeOps⟩ = .ok (.illegal 0x10) ∧ (0x10 : Byte).toNat / 16 ≠ 0) ∧
    (decode ⟨0x0E, edgeOps⟩ = .ok (.csumBuf [255, 0]) ∧ groupOf (.csumBuf [255, 0]) = some 3) ∧
    (decode ⟨0x0B, edgeOps⟩ = .ok (.decAny [255, 0]) ∧ selectOf (.decAny [255, 0]) = some 3) :=
  ⟨⟨rfl, by decide⟩, ⟨rfl, rfl⟩, ⟨rfl, rfl⟩⟩

/-- DecodeOfEncodeIsTheInstruction, CommandsTakeEffectInIssueOrder: well-formed instructions at the bounds. -/
theorem witness_wellFormed : ∀ i ∈ [Instr.encRsp 0xFF (-128) [0xFF], .encRsp 0 127 [], .illegal 0x10, .illegal 0xFF,
    .hdrEnc 3 64, .csumAdd 0xFF], i.wellFormed = true := by decide

/-- IllegalWordsRaiseIllegalCommand: the four free slots, and the first and last word with a non-zero Z field. -/
theorem witness_illegal_words :
    (illegalNumber (0x00 : Byte).toNat ∧ illegalNumber (0x03 : Byte).toNat ∧ illegalNumber (0x07 : Byte).toNat ∧
      illegalNumber (0x0F : Byte).toNat ∧ illegalNumber (0x10 : Byte).toNat ∧ illegalNumber (0xFF : Byte).toNat) ∧
    (issued 0x42 ⟨0xFF, edgeOps⟩).pending = .command ⟨0xFF, edgeOps⟩ :: [] := ⟨by decide, rfl⟩

/-- IllTypedOperandsHaveNoStep: a command the block takes and one it does not, side by side. -/
theorem witness_operandsTyped :
    OperandsTyped ⟨0x05, edgeOps⟩ ∧ ¬ OperandsTyped ⟨0x05, { edgeOps with error := -129 }⟩ ∧
    OperandsTyped ⟨0x0C, { edgeOps with b := 256 }⟩ ∧ ¬ OperandsTyped ⟨0x0D, { edgeOps with b := 256 }⟩ := by
  simp [OperandsTyped, edgeOps]

theorem witness_ill_typed_step : ∃ s : State, s.pending = .command ⟨0x0D, { edgeOps with b := 256 }⟩ :: [] ∧
    step s = .fault (.illTypedOperand .b) := ⟨issued 0 ⟨0x0D, { edgeOps with b := 256 }⟩, rfl, rfl⟩

/-- StatusIsAViewOfRes: two states that differ in ACC and agree in RES. -/
theorem witness_same_res : (withRes (st 0) (.csum 1)).res = (withRes (st 1) (.csum 1)).res := rfl

/-- ResetEventSetsTheWholeState: a reset event is next, after a failed command. -/
theorem witness_reset_event :
    ({ acc := 0xFF, res := .err .illegalCommand .noInfo, pending := [.reset] } : State).pending = .reset :: [] := rfl

/-! ResultsComeFromTheirCommands: a command for each kind of result. -/

theorem witness_hdrByte : ∃ t, exec (.hdrEnc 2 63) (st 0) = .next t ∧ t.res = .hdrByte 0xFE := ⟨_, rfl, rfl⟩

theorem witness_hdrFields : ∃ t, exec (.hdrDec 0xFE) (st 0) = .next t ∧ t.res = .hdrFields 2 63 := ⟨_, rfl, rfl⟩

theorem witness_csum : ∃ t, exec (.csumAdd 1) (st 0xFF) = .next t ∧ t.res = .csum 0 := ⟨_, rfl, rfl⟩

theorem witness_tx : ∃ t, exec (.encNtf 0 0 []) (st 0) = .next t ∧ t.res = .tx frameB := ⟨_, rfl, rfl⟩

theorem witness_rx : ∃ t, exec (.decNtf frameB) (st 0) = .next t ∧ t.res = .rx ⟨⟨2, 0⟩, 0, .notification 0 [], 0x02⟩ :=
  ⟨_, rfl, rfl⟩

/-- OnlyChecksumCommandsTouchAcc. -/
theorem witness_not_checksum : isChecksum (.illegal 0xFF) = false ∧ isChecksum (.decAny frameA) = false ∧
    isChecksum (.csumBuf []) = true := by decide

/-- Under the parameters `p`, instruction `i` completes from a small state and leaves the error in RES. -/
abbrev FailsWith (p : Params) (i : Instr) (code : ErrorCode) (info : ErrInfo) : Prop :=
  ∃ t, execWith p i (st 0) = .next t ∧ t.res = .err code info

/-- A completed command fails with what RES then holds. -/
theorem failsWith_of_res {p : Params} {i : Instr} {code : ErrorCode} {info : ErrInfo}
    (h : (nextOf (execWith p i (st 0))).map State.res = some (.err code info)) : FailsWith p i code info := by
  cases hx : execWith p i (st 0) <;> rw [hx] at h
  · exact ⟨_, hx, Option.some.inj h⟩
  · cases h
  · cases h

/-! ErrorsHaveTheirStatedCauses, FailedCommandsChangeOnlyRes: a failure for every error code and every cause. -/

theorem witness_invalidLength : FailsWith Config.params (.hdrEnc 0 64) .invalidLength .noInfo :=
  failsWith_of_res (by decide)

theorem witness_payloadTooLarge : FailsWith Config.params (.encReq 0 0 (zeros 64)) .payloadTooLarge .noInfo :=
  failsWith_of_res (by decide)

theorem witness_unknownKind_packed : FailsWith Config.params (.hdrEnc 3 63) .unknownMessageKind .noInfo :=
  failsWith_of_res (by decide)

theorem witness_unknownKind_unpacked : FailsWith Config.params (.hdrDec 0xFF) .unknownMessageKind .noInfo :=
  failsWith_of_res (by decide)

/-- The frame decoder rejects kind 3 even where it is permitted. -/
theorem witness_unknownKind_decoded : FailsWith permitting (.decAny (0xFF :: zeros 7)) .unknownMessageKind .noInfo :=
  failsWith_of_res (by decide)

theorem witness_truncatedFrame : FailsWith Config.params (.decAny (zeros 7)) .truncatedFrame .noInfo :=
  failsWith_of_res (by decide)

theorem witness_kindMismatch : FailsWith Config.params (.decReq frameB) .kindMismatch .noInfo :=
  failsWith_of_res (by decide)

theorem witness_lengthMismatch : FailsWith Config.params (.decAny (frameB ++ [0])) .lengthMismatch .noInfo :=
  failsWith_of_res (by decide)

/-- A length field below the bias of its kind. -/
theorem witness_length_below_bias : FailsWith biased (.decAny (0x05 :: (zeros 6 ++ [0x05]))) .lengthMismatch .noInfo :=
  failsWith_of_res (by decide)

theorem witness_checksumMismatch :
    FailsWith Config.params (.decNtf (frameB.set 7 0x03)) .checksumMismatch (.csumPair 0x02 0x03) :=
  failsWith_of_res (by decide)

theorem witness_illegalCommand : FailsWith Config.params (.illegal 0x10) .illegalCommand .noInfo :=
  failsWith_of_res (by decide)

/-- NothingNeedsInitialising, RepeatedCommandsAreIdempotentButForAdd. -/
theorem witness_no_add : (∀ b, Instr.csumBuf [0xFF] ≠ .csumAdd b) ∧
    (∃ t, exec (.csumBuf [0xFF]) (st 0) = .next t) ∧ (∃ t, exec (.csumBuf [0xFF]) (st 0xFF) = .next t) :=
  ⟨(fun _ h => Instr.noConfusion h), ⟨_, rfl⟩, ⟨_, rfl⟩⟩

theorem witness_add_twice : ∃ t u, exec (.csumAdd 0x80) (st 0) = .next t ∧ exec (.csumAdd 0x80) t = .next u ∧
    (0x80 : Byte) ≠ 0 := ⟨_, _, rfl, rfl, by decide⟩

/-- HdrEncPacksOrFails, HdrDecUnpacksOrFails: the length 63 and 64, the kinds 2 and 3. -/
theorem witness_header_bounds : (63 ≤ 63 ∧ (2 : BitVec 2).toNat < 3) ∧ 63 < 64 ∧
    (0xFE : Byte).toNat % 4 < 3 ∧ (0xFF : Byte).toNat % 4 = 3 ∧
    seen (exec (.hdrDec 0xFE) (st 0)) = some ⟨0, .hdrFields 2 63, 0x80⟩ := by decide

/-- KindThreeNamesNoVariant: an 8-byte buffer of kind 3, and a frame the encoder produced. -/
theorem witness_kind_three : (0xFF : Byte).toNat % 4 = 3 ∧
    decoderFields (.decRsp (0xFF :: zeros 7)) = some (some 1, 0xFF :: zeros 7) ∧ 7 ≤ (zeros 7).length ∧
    (encoderFields (.encReq 1 0 payloadA)).isSome = true := by decide

theorem witness_encoded : ∃ t, execWith Config.params (.encReq 1 0 payloadA) (st 0) = .next t ∧ t.res = .tx frameA :=
  ⟨_, rfl, rfl⟩

/-- CsumClrClearsTheAccumulator. -/
theorem witness_clear : ∃ t, exec .csumClr (st 0xFF) = .next t := ⟨_, rfl⟩

/-- ChecksumFoldConcatenationAndOrder, ChecksumDetectsEveryOneByteChange. -/
theorem witness_checksum : ([1, 2] : List Byte).Perm [2, 1] ∧ (0x00 : Byte) ≠ 0xFF ∧ 0 < 8 ∧ 7 < 8 :=
  ⟨List.Perm.swap 2 1 [], by decide, by decide, by decide⟩

/-- The encoder's and decoder's statements: payloads of 63 and 64 bytes, buffers of 7 and 8. -/
theorem witness_sizes : (zeros 63).length ≤ 63 ∧ (zeros 63).length = 63 ∧ 63 < (zeros 64).length ∧
    (zeros 64).length = 64 ∧ (zeros 7).length < 8 ∧ 8 ≤ (zeros 8).length ∧ (2 : Nat) < 3 := by decide

/-- EncoderLaws: encoder commands at the length boundary. -/
theorem witness_encoder_fields :
    encoderFields (.encReq 0 0 (zeros 63)) = some (0, 0, 0, zeros 63) ∧
    encoderFields (.encRsp 0 (-1) (zeros 64)) = some (1, 0, 0xFF, zeros 64) ∧
    encoderFields (.encNtf 0 0xFF []) = some (2, 0, 0xFF, []) := by decide

/-! Accepted frames: scenario A's and B's, the longest, and one under the biased configuration. -/

theorem accepted_frameA : Accepted Config.params frameA := ⟨st 0, _, decodedA, rfl, rfl⟩

theorem accepted_frameB : Accepted Config.params frameB := ⟨st 0, _, _, rfl, rfl⟩

theorem accepted_longest : Accepted Config.params (frameOf 0 63 0 0 (zeros 63)) := ⟨st 0, _, _, rfl, rfl⟩

theorem accepted_biased : Accepted biased (frameOf 1 3 0 0xFF [0x01]) := ⟨st 0, _, _, rfl, rfl⟩

/-- FramesHaveEightToSeventyOneBytes: the smallest ports rule R6 allows, the longest frame (V-E5) both ways. -/
theorem witness_frame_sizes : biased.Legal ∧
    (∃ t, execWith Config.params (.encReq 0 0 (zeros 63)) (st 0) = .next t ∧
      t.res = .tx (frameOf 0 63 0 0 (zeros 63)) ∧ (frameOf 0 63 0 0 (zeros 63)).length = 71) ∧
    (∃ t, execWith Config.params (.decAny (frameOf 0 63 0 0 (zeros 63))) (st 0) = .next t ∧
      t.res = .rx ⟨⟨0, 63⟩, 0, .request 0 (zeros 63), 0xFC⟩) :=
  ⟨by decide, ⟨_, rfl, rfl, rfl⟩, ⟨_, rfl, rfl⟩⟩

/-- DecodeOfEncodedFrameGivesTheFields: a Response with the most negative error. -/
theorem witness_round_trip : ∃ t F, (Instr.encRsp 0x7F (-128) [1]).wellFormed = true ∧
    encoderFields (.encRsp 0x7F (-128) [1]) = some (1, 0x7F, 0x80, [1]) ∧
    bodyOperand (.encRsp 0x7F (-128) [1]) = some (.response (-128) [1]) ∧
    execWith Config.params (.encRsp 0x7F (-128) [1]) (st 0) = .next t ∧ t.res = .tx F ∧ F.length = 9 ∧
    hintedDecoder 1 F = .decRsp F := ⟨_, _, rfl, rfl, rfl, rfl, rfl, rfl, rfl⟩

/-- TruncatedFramesAreRejected: 7, 8 and n - 1 bytes of scenario A's frame. -/
theorem witness_cuts : Accepted Config.params frameA ∧ 7 < 8 ∧ 8 ≤ 8 ∧ 8 < frameA.length ∧ 8 ≤ 15 ∧
    15 < frameA.length := ⟨accepted_frameA, by decide, by decide, by decide, by decide, by decide⟩

/-- SingleBitErrorsAreDetected: the first and last bit of each range, and a changed checksum byte. -/
theorem witness_flips : Accepted Config.params (0x20 :: frameA.tail) ∧ (2 ≤ 2 ∧ 2 < 8) ∧ (2 ≤ 7 ∧ 7 < 8) ∧
    0 < 2 ∧ 1 < 2 ∧ (1 ≤ 1 ∧ 1 < frameA.tail.length + 1) ∧ (1 ≤ 15 ∧ 15 < frameA.tail.length + 1) ∧
    Accepted Config.params (frameA.dropLast ++ [0xE8]) ∧ (0xE9 : Byte) ≠ 0xE8 :=
  ⟨accepted_frameA, by decide, by decide, by decide, by decide, by decide, by decide, accepted_frameA, by decide⟩

/-- SingleBitErrorsAreDetected, under a configuration whose kinds have different biases. -/
theorem witness_flips_biased :
    Accepted biased (frameOf 1 3 0 0xFF [0x01]) ∧ biasOf biased 0 ≠ biasOf biased 1 := ⟨accepted_biased, by decide⟩

/-- ReservedBytesAreIgnoredAndReencodedAsZero: V-D16, a frame with a non-zero reserved byte, and V-A1 without. -/
theorem witness_reserved :
    (∃ t, execWith Config.params (.decAny (layout 0x20 0x01 0x00 payloadA 0x00 0x5A 0x00 0x00 0x42)) (st 0) = .next t ∧
      t.res = .rx { decodedA with checksum := 0x42 }) ∧
    (∃ t, execWith Config.params (.decAny (layout 0x20 0x01 0x00 payloadA 0 0 0 0 0xE8)) (st 0) = .next t ∧
      t.res = .rx decodedA) := ⟨⟨_, rfl, rfl⟩, ⟨_, rfl, rfl⟩⟩

/-- ConcatenatedFramesAreNotReframed. -/
theorem witness_concatenation : Accepted Config.params frameA ∧ frameB ≠ [] := ⟨accepted_frameA, by decide⟩

/-- SignedByteConversionsAreInverse: the bounds of i8. -/
theorem witness_i8 : ((-128 : Int) ≤ -128 ∧ (-128 : Int) ≤ 127) ∧ ((-128 : Int) ≤ 127 ∧ (127 : Int) ≤ 127) := by decide

/-- StepRunsTheDecodedCommand. -/
theorem witness_step : (issued 0xFF ⟨0x0D, edgeOps⟩).pending = .command ⟨0x0D, edgeOps⟩ :: [] ∧
    decode ⟨0x0D, edgeOps⟩ = .ok (.csumAdd 0xFF) := ⟨rfl, rfl⟩

/-- TableWordsRunAsTheNextStep: the first and the last word of the table's 8 bits. -/
theorem witness_table_words : decodeTableWord 8 0x00 = some (.illegal 0x00) ∧ decodeTableWord 8 0x01 = some (.hdrEnc 0 0) ∧
    decodeTableWord 8 0x0E = some (.csumBuf []) ∧ decodeTableWord 8 0xFF = some (.illegal 0xFF) := by decide

/-- SafeStatesRunToTheEnd, EveryStepKeepsTheInvariant: a state that has the invariant, with a command and a reset
event issued. -/
theorem witness_invariant :
    BlockInv { acc := 0x42, res := .csum 0x42, pending := [.command ⟨0x05, edgeOps⟩, .reset] } ∧
    ({ acc := 0x42, res := .csum 0x42, pending := [.command ⟨0x05, edgeOps⟩, .reset] } : State).pending ≠ [] ∧
    (∃ t, step { acc := 0x42, res := .csum 0x42, pending := [.command ⟨0x05, edgeOps⟩, .reset] } = .next t) :=
  ⟨⟨rfl, by decide⟩, by simp, ⟨_, rfl⟩⟩

/-- EveryStepKeepsTheInvariant: RES after a failed decode, whose clause is the one with a pair. -/
theorem witness_invariant_error :
    BlockInv { acc := 0, res := .err .checksumMismatch (.csumPair 0x02 0x03), pending := [.reset] } :=
  ⟨⟨fun h => absurd rfl h, fun _ => ⟨0x02, 0x03, by decide, rfl⟩⟩, by decide⟩

/-- InvariantHoldsAtReset. -/
theorem witness_well_typed_inputs : [HostEvent.reset, .command ⟨0x05, edgeOps⟩].all wellTypedEvent = true := by decide

/-- InstancesAgreeWithinTheirPortLimits: a buffer of exactly RX_CAP bytes and one more, a length at the port's edge. -/
theorem witness_ports : biased.Legal ∧ portLimit biased (.decAny (zeros 71)) = none ∧
    portLimit biased (.hdrEnc 0 127) = none ∧
    (issued 0 ⟨0x01, { edgeOps with len := 128 }⟩).pending = .command ⟨0x01, { edgeOps with len := 128 }⟩ :: [] ∧
    decode ⟨0x01, { edgeOps with len := 128 }⟩ = .ok (.hdrEnc 3 128) ∧ 2 ^ biased.lenW ≤ 128 ∧
    bufOf (.decAny (zeros 72)) = some (zeros 72) ∧ biased.rxCap < (zeros 72).length ∧
    decoderFields (.decAny (zeros 72)) = some (none, zeros 72) ∧
    (∃ t, execWith biased (.decAny (zeros 72)) (st 0) = .next t) :=
  ⟨by decide, by decide, by decide, rfl, rfl, by decide, rfl, by decide, rfl, ⟨_, rfl⟩⟩

end Sys2Proof.Tests
end

section
/-! SUPPORT. The statements of 00_scope.md: what every command writes, which commands have a step, how long frames
are, and how a run ends. The laws come first and name the model's operations; each settled statement is a short use of
them. -/

namespace Sys2Proof.Laws

open Sys2Proof.Machine Sys2Proof.Claims

/-! ## What a command writes -/

/-- The machine is the parametric block at this hardware's parameters (10_state.md rule R23). -/
theorem exec_eq_execWith (i : Instr) (s : State) : exec i s = execWith Config.params i s := by
  cases i <;> rfl

/-- What a command leaves in ACC, from the value ACC held (10_state.md rule R15). -/
def writtenAcc (i : Instr) (acc : Byte) : Byte :=
  match i with
  | .csumClr     => 0x00#8
  | .csumAdd b   => BitVec.ofNat 8 (acc.toNat + b.toNat)
  | .csumBuf buf => sum8 buf
  | _            => acc

/-- What a command leaves in RES, from the value ACC held (10_state.md rule R17). -/
def writtenRes (p : Params) (i : Instr) (acc : Byte) : Result :=
  match i with
  | .hdrEnc kind len           => resultOf .hdrByte (packedHeader p kind len)
  | .hdrDec h                  => resultOf (fun f => .hdrFields f.kind f.length) (unpackedHeader p h)
  | .encReq id subtype payload => resultOf .tx (encodeFrame p .request id subtype payload)
  | .encRsp id error payload   => resultOf .tx (encodeFrame p .response id (toU8 error) payload)
  | .encNtf id event payload   => resultOf .tx (encodeFrame p .notification id event payload)
  | .decReq buf                => resultOf .rx (decodeFrame p (some .request) buf)
  | .decRsp buf                => resultOf .rx (decodeFrame p (some .response) buf)
  | .decNtf buf                => resultOf .rx (decodeFrame p (some .notification) buf)
  | .decAny buf                => resultOf .rx (decodeFrame p none buf)
  | .illegal _                 => .err .illegalCommand .noInfo
  | i                          => .csum (writtenAcc i acc)

/-- Every command completes (rule R11), and its two writes are all it does. -/
theorem execWith_eq_next (p : Params) (i : Instr) (s : State) :
    execWith p i s = .next { s with acc := writtenAcc i s.acc, res := writtenRes p i s.acc } := by
  cases i with
  | csumClr | csumAdd _ | csumBuf _ => exact finishCsum_next _ _
  | illegal cmd => rfl
  | _ => exact finish_next _ _ _

theorem exec_eq_next (i : Instr) (s : State) :
    exec i s = .next { s with acc := writtenAcc i s.acc, res := writtenRes Config.params i s.acc } := by
  rw [exec_eq_execWith, execWith_eq_next]

theorem resultOf_ne_none {α : Type} {f : α → Result} (hf : ∀ a, f a ≠ .none) (o : Except CmdError α) :
    resultOf f o ≠ .none := by
  cases o with
  | ok a => exact hf a
  | error e => simp

/-- No command leaves NONE in RES: that value stands there after reset alone. -/
theorem writtenRes_ne_none (p : Params) (i : Instr) (acc : Byte) : writtenRes p i acc ≠ .none := by
  cases i with
  | csumClr | csumAdd _ | csumBuf _ | illegal _ => simp [writtenRes]
  | _ => exact resultOf_ne_none (by simp) _

theorem resultOf_rx_eq_rx {o : Except CmdError DecodedFrame} {fr : DecodedFrame} :
    resultOf .rx o = .rx fr ↔ o = .ok fr := by
  cases o <;> simp

theorem resultOf_tx_eq_tx {o : Except CmdError (List Byte)} {F : List Byte} :
    resultOf .tx o = .tx F ↔ o = .ok F := by
  cases o <;> simp

/-! ## The signed byte -/

theorem toU8_toNat (e : Int) : ((toU8 e).toNat : Int) = e % 256 := by
  simp only [toU8, BitVec.toNat_ofInt]
  omega

/-- The model's two's complement is the byte that rule R10 writes, `e mod 256`. -/
theorem toU8_eq_byte (e : Int) : toU8 e = byte (e % 256).toNat := by
  apply BitVec.eq_of_toNat_eq
  have h := toU8_toNat e
  simp only [BitVec.toNat_ofNat]
  omega

theorem toI8_eq_signed (b : Byte) : toI8 b = signed b := rfl

theorem toI8_range (b : Byte) : -128 ≤ toI8 b ∧ toI8 b ≤ 127 := by
  have hb := b.isLt
  unfold toI8
  split <;> omega

theorem toI8_toU8 {e : Int} (hlo : -128 ≤ e) (hhi : e ≤ 127) : toI8 (toU8 e) = e := by
  have h := toU8_toNat e
  unfold toI8
  split <;> omega

theorem toI8_emod (b : Byte) : toI8 b % 256 = b.toNat := by
  have hb := b.isLt
  unfold toI8
  split <;> omega

theorem toU8_toI8 (b : Byte) : toU8 (toI8 b) = b := by
  apply BitVec.eq_of_toNat_eq
  have h := toU8_toNat (toI8 b)
  rw [toI8_emod] at h
  exact Int.ofNat_inj.1 h

/-! ## Which commands have a step -/

theorem step_of_decode_ok {s : State} {c : Command} {rest : List HostEvent} {i : Instr}
    (hp : s.pending = .command c :: rest) (hd : decode c = .ok i) : step s = exec i (s.setPending rest) := by
  simp only [step, hp, hd]

theorem step_of_decode_error {s : State} {c : Command} {rest : List HostEvent} {f : OperandField}
    (hp : s.pending = .command c :: rest) (hd : decode c = .error f) : step s = .fault (.illTypedOperand f) := by
  simp only [step, hp, hd]

theorem step_of_reset {s : State} {rest : List HostEvent} (hp : s.pending = .reset :: rest) :
    step s = .next (s.setPending rest).resetBlock := by
  simp only [step, hp]

/-- Row by row of the command map, the operands can be read exactly when they are well-typed (rules R41, R42). -/
theorem readOperands_ok_iff_operandsTyped {w : Byte} {op : Op} (hrow : (w, op) ∈ commandMap) (o : Operands) :
    (∃ i, readOperands op o = .ok i) ↔ OperandsTyped ⟨w, o⟩ := by
  simp only [readOperands_ok_iff]
  cases op
  all_goals
    obtain rfl : w = _ := by simpa [commandMap] using hrow
    simp [OperandsTyped]

/-- An illegal word reads no operand (rule R44). -/
theorem operandsTyped_of_isIllegalWord {c : Command} (h : isIllegalWord c.cmd = true) : OperandsTyped c := by
  obtain ⟨w, o⟩ := c
  have hw : illegalNumber w.toNat := by
    simpa [isIllegalWord, ← BitVec.toNat_inj, illegalNumber, or_assoc] using h
  unfold OperandsTyped
  split
  case h_12 => trivial
  all_goals
    dsimp only [illegalNumber] at *
    omega

/-- A command decodes exactly when the operands it reads are well-typed (rule R14). -/
theorem decode_ok_iff_operandsTyped (c : Command) : (∃ i, decode c = .ok i) ↔ OperandsTyped c := by
  obtain ⟨op, hrow, hd⟩ | ⟨hw, hd⟩ := decode_cases c
  · rw [hd]
    exact readOperands_ok_iff_operandsTyped hrow c.ops
  · exact iff_of_true ⟨_, hd⟩ (operandsTyped_of_isIllegalWord hw)

/-! ## Frame sizes -/

theorem lenBias_le (p : Params) (k : MessageKind) : p.lenBias k ≤ 63 := by
  cases k <;> simp only [Params.lenBias] <;> omega

theorem minFrame_eq : Config.minFrame = 8 := rfl

/-- This hardware keeps the bounds of rule R6, however far its RX_CAP lies above 71 (log entry 6). -/
theorem legal_params : Config.params.Legal := ⟨by decide, Nat.le_add_right 71 _⟩

theorem cap_eq (p : Params) (k : MessageKind) : Config.cap p k = 63 - p.lenBias k := rfl

/-- Rule R7's two ways to write the longest frame agree because no bias exceeds the length field. -/
theorem maxFrame_eq (p : Params) (k : MessageKind) : Config.maxFrame p k = 71 - p.lenBias k := by
  have hbias := lenBias_le p k
  rw [Config.maxFrame, cap_eq, minFrame_eq]
  omega

theorem biasOf_kindNumber (p : Params) (k : MessageKind) : biasOf p (kindNumber k) = p.lenBias k := by
  cases k <;> rfl

theorem bodyOf_kind (k : MessageKind) (f2 : Byte) (payload : List Byte) : (bodyOf k f2 payload).kind = k := by
  cases k <;> rfl

theorem frameBytes_length (k : MessageKind) (L : Nat) (id f2 : Byte) (payload : List Byte) :
    (frameBytes k L id f2 payload).length = payload.length + 8 := by
  simp [frameBytes_eq]

/-- An encoder command is `ENCODE` of the fields its operands name, under every configuration (rules R69 to R71). -/
theorem execWith_of_encoderFields {i : Instr} {k : Nat} {id f2 : Byte} {payload : List Byte}
    (h : encoderFields i = some (k, id, f2, payload)) :
    ∃ kind, kindNumber kind = k ∧ ∀ p s, execWith p i s = encodeWith p kind id f2 payload s := by
  cases i with
  | encReq id subtype payload => cases h; exact ⟨.request, rfl, fun _ _ => rfl⟩
  | encRsp id error payload =>
    cases h
    exact ⟨.response, rfl, fun p s => by rw [← toU8_eq_byte]; rfl⟩
  | encNtf id event payload => cases h; exact ⟨.notification, rfl, fun _ _ => rfl⟩
  | _ => cases h

/-- A decoder command is `DECODE` of its hint and buffer, under every configuration (rules R74 to R77). -/
theorem execWith_of_decoderFields {i : Instr} {hint : Option Nat} {B : List Byte}
    (h : decoderFields i = some (hint, B)) :
    ∃ kind : Option MessageKind, kind.map kindNumber = hint ∧ ∀ p s, execWith p i s = decodeWith p kind B s := by
  cases i with
  | decReq buf => cases h; exact ⟨some .request, rfl, fun _ _ => rfl⟩
  | decRsp buf => cases h; exact ⟨some .response, rfl, fun _ _ => rfl⟩
  | decNtf buf => cases h; exact ⟨some .notification, rfl, fun _ _ => rfl⟩
  | decAny buf => cases h; exact ⟨none, rfl, fun _ _ => rfl⟩
  | _ => cases h

/-- A frame that `ENCODE` produces holds a payload that fits the length field (rule R68). -/
theorem encodeFrame_ok_length {p : Params} {k : MessageKind} {id f2 : Byte} {payload F : List Byte}
    (h : encodeFrame p k id f2 payload = .ok F) :
    F.length = payload.length + 8 ∧ payload.length + p.lenBias k ≤ 63 := by
  obtain ⟨-, he⟩ | ⟨hle, he⟩ := encodeFrame_cases p k id f2 payload
  · rw [he] at h; cases h
  · rw [he] at h; cases h
    exact ⟨frameBytes_length .., hle⟩

/-- A body that is decoded has the length its header states and is of the kind decoded for (rule R73, steps 3 to 5). -/
theorem decodeBody_ok {p : Params} {k : MessageKind} {B : List Byte} {hn : 8 ≤ B.length} {fr : DecodedFrame}
    (h : decodeBody p k B hn = .ok fr) :
    p.lenBias k ≤ fr.header.length.toNat ∧ B.length = fr.header.length.toNat - p.lenBias k + 8 ∧ fr.body.kind = k := by
  unfold decodeBody at h
  dsimp only at h
  split at h
  · cases h
  · next hlen =>
    rw [minFrame_eq] at hlen
    split at h
    · cases h
    · cases h
      refine ⟨?_, ?_, bodyOf_kind ..⟩
      · dsimp only; omega
      · dsimp only; omega

/-- A buffer that is accepted has at least the 8 bytes of an empty frame, and a body that was decoded. -/
theorem decodeFrame_ok {p : Params} {hint : Option MessageKind} {B : List Byte} {fr : DecodedFrame}
    (h : decodeFrame p hint B = .ok fr) : ∃ (hn : 8 ≤ B.length) (k : MessageKind), decodeBody p k B hn = .ok fr := by
  unfold decodeFrame at h
  split at h
  · next hn =>
    split at h
    · cases h
    · next k _ =>
      split at h
      · cases h
      · exact ⟨hn, k, h⟩
  · cases h

/-- Accepted buffers are as long as the length field of their header says, so at most 71 bytes less the bias (R57). -/
theorem decodeFrame_ok_length {p : Params} {hint : Option MessageKind} {B : List Byte} {fr : DecodedFrame}
    (h : decodeFrame p hint B = .ok fr) : 8 ≤ B.length ∧ B.length ≤ 71 - p.lenBias fr.body.kind := by
  obtain ⟨hn, k, hb⟩ := decodeFrame_ok h
  obtain ⟨hbias, hlen, rfl⟩ := decodeBody_ok hb
  have hL := fr.header.length.isLt
  omega

/-- The buffer of a decoder command that answers RX. -/
theorem decoder_rx_length {p : Params} {i : Instr} {s t : State} {hint : Option Nat} {B : List Byte} {fr : DecodedFrame}
    (hi : decoderFields i = some (hint, B)) (he : execWith p i s = .next t) (hr : t.res = .rx fr) :
    8 ≤ B.length ∧ B.length ≤ 71 - p.lenBias fr.body.kind := by
  obtain ⟨kind, -, hx⟩ := execWith_of_decoderFields hi
  rw [hx, decodeWith, finish_next] at he
  cases he
  exact decodeFrame_ok_length (resultOf_rx_eq_rx.1 hr)

/-- The frame of an encoder command that answers TX. -/
theorem encoder_tx_length {p : Params} {i : Instr} {s t : State} {k : Nat} {id f2 : Byte} {payload F : List Byte}
    (hi : encoderFields i = some (k, id, f2, payload)) (he : execWith p i s = .next t) (hr : t.res = .tx F) :
    F.length = payload.length + 8 ∧ payload.length + biasOf p k ≤ 63 := by
  obtain ⟨kind, rfl, hx⟩ := execWith_of_encoderFields hi
  rw [hx, encodeWith, finish_next] at he
  cases he
  rw [biasOf_kindNumber]
  exact encodeFrame_ok_length (resultOf_tx_eq_tx.1 hr)

/-! ## Runs of well-typed inputs -/

/-- A well-typed input has a step, which takes that input and no other. -/
theorem step_of_wellTypedEvent {s : State} {e : HostEvent} {es : List HostEvent} (hp : s.pending = e :: es)
    (he : wellTypedEvent e = true) : ∃ t, step s = .next t ∧ t.pending = es := by
  cases e with
  | reset => exact ⟨_, step_of_reset hp, rfl⟩
  | command c =>
    cases hd : decode c with
    | ok i => exact ⟨_, (step_of_decode_ok hp hd).trans (exec_eq_next i _), rfl⟩
    | error f => simp [wellTypedEvent, hd] at he

/-- Well-typed inputs run to their end, one step and one observation each. -/
theorem run_of_wellTyped (es : List HostEvent) (s : State) (hp : s.pending = es) (h : es.all wellTypedEvent = true) :
    ∃ t, core.run es.length s = .next t ∧ t.pending = [] ∧ (observations es.length s).length = es.length := by
  induction es generalizing s with
  | nil => exact ⟨s, run_zero s, hp, rfl⟩
  | cons e es ih =>
    obtain ⟨he, hes⟩ : wellTypedEvent e = true ∧ es.all wellTypedEvent = true := by simpa using h
    obtain ⟨u, hstep, hu⟩ := step_of_wellTypedEvent hp he
    obtain ⟨t, hrun, ht, hobs⟩ := ih u hu hes
    refine ⟨t, ?_, ht, ?_⟩
    · rw [List.length_cons, run_succ_of_next _ hstep, hrun]
    · rw [List.length_cons, observations_succ_of_next _ hstep, List.length_cons, hobs]

/-! ## The ports of a hardware block -/

/-- A command that decodes runs under the parameters, unless a port limit refuses it (93_implementation_defined.md I14). -/
theorem instanceStep_of_decode_ok {p : Params} {s : State} {c : Command} {rest : List HostEvent} {i : Instr}
    (hp : s.pending = .command c :: rest) (hd : decode c = .ok i) :
    instanceStep p s = (portLimit p i).elim (execWith p i (s.setPending rest)) .refused := by
  simp only [instanceStep, hp, hd]
  cases portLimit p i <;> rfl

theorem portLimit_of_long_buf {p : Params} {i : Instr} {buf : List Byte} (hb : bufOf i = some buf)
    (h : p.rxCap < buf.length) : portLimit p i = some .beyondRxCap := by
  simp [portLimit, hb, h]

theorem portLimit_of_long_len {p : Params} (kind : BitVec 2) {len : Nat} (h : 2 ^ p.lenW ≤ len) :
    portLimit p (.hdrEnc kind len) = some .beyondLenW := by
  simp [portLimit, bufOf, lenOf, h]

/-- A legal LEN_W holds every length the header can state (decision D11). -/
theorem lenMax_lt_of_legal {p : Params} (hp : p.Legal) {len : Nat} (h : 2 ^ p.lenW ≤ len) : 63 < len := by
  have h7 : 2 ^ 7 ≤ 2 ^ p.lenW := Nat.pow_le_pow_right (by decide) hp.1
  omega

theorem packedHeader_of_long {p : Params} (kind : BitVec 2) {len : Nat} (h : 63 < len) :
    packedHeader p kind len = .error ⟨.invalidLength, .noInfo⟩ := by
  obtain ⟨-, he⟩ | ⟨hle, -⟩ | ⟨hle, -⟩ := packedHeader_cases p kind len
  · exact he
  · omega
  · omega

end Sys2Proof.Laws

namespace Sys2Proof.Proofs

open Sys2Proof.Machine Sys2Proof.Claims Sys2Proof.Laws

/-- Settles O7: a command decodes exactly when the operands it reads are well-typed, and what decodes completes. -/
theorem illTypedOperandsHaveNoStep : Obligations.IllTypedOperandsHaveNoStep := by
  intro s c rest hp
  cases hd : decode c with
  | ok i =>
    have hstep := (step_of_decode_ok hp hd).trans (exec_eq_next i _)
    have htyped : OperandsTyped c := (decode_ok_iff_operandsTyped c).1 ⟨i, hd⟩
    exact ⟨by simp [hstep, htyped], fun _ => ⟨_, hstep⟩⟩
  | error f =>
    have hill : ¬ OperandsTyped c := by simp [← decode_ok_iff_operandsTyped, hd]
    exact ⟨iff_of_true ⟨f, step_of_decode_error hp hd⟩ hill, fun h => absurd h hill⟩

/-- Settles O14: what a command writes is a function of its operands and ACC (`writtenAcc`, `writtenRes`). -/
theorem everyCommandWritesResAndReadsItNot : Obligations.EveryCommandWritesResAndReadsItNot := fun i s =>
  ⟨writtenAcc i s.acc, writtenRes Config.params i s.acc, writtenRes_ne_none _ _ _,
    fun old => exec_eq_next i (withRes s old)⟩

/-- Settles O34: a frame is its payload and 8 bytes, and the length field bounds the payload. -/
theorem framesHaveEightToSeventyOneBytes : Obligations.FramesHaveEightToSeventyOneBytes := by
  refine ⟨?_, ?_, ?_⟩
  · intro p i s t k id f2 payload F hi he hr
    obtain ⟨hlen, hfit⟩ := encoder_tx_length hi he hr
    omega
  · intro p i s t hint B fr hi he hr
    rw [biasOf_kindNumber]
    exact decoder_rx_length hi he hr
  · rintro p B ⟨-, hcap⟩ ⟨s, t, fr, he, hr⟩
    obtain ⟨-, hlen⟩ := decoder_rx_length rfl he hr
    omega

/-- Settles O50, by induction on the inputs still to come. -/
theorem safeStatesRunToTheEnd : Obligations.SafeStatesRunToTheEnd := fun s hs =>
  run_of_wellTyped s.pending s rfl hs

/-- Settles O53: the port limits come before the command and nothing else does; what a legal limit shuts out the model
would have answered with an error. -/
theorem instancesAgreeWithinTheirPortLimits : Obligations.InstancesAgreeWithinTheirPortLimits := by
  refine ⟨?_, ?_, ?_⟩
  · intro s c rest i p hp hd
    rw [instanceStep_of_decode_ok hp hd]
    refine ⟨fun hfree => ?_, fun buf hb hlong => ?_, ?_⟩
    · rw [hfree]; rfl
    · rw [portLimit_of_long_buf hb hlong]; rfl
    · rintro kind len rfl hlong
      rw [portLimit_of_long_len kind hlong]; rfl
  · rintro p i hint B s t fr ⟨-, hcap⟩ hi hlong he hr
    obtain ⟨-, hlen⟩ := decoder_rx_length hi he hr
    omega
  · intro p kind len s hp hlong
    rw [execWith_eq_next, writtenRes, packedHeader_of_long kind (lenMax_lt_of_legal hp hlong)]
    rfl

/-- Settles O9: the parameters and sizes by evaluation, the machine by `exec_eq_execWith`. -/
theorem configurationOfThisHardware : Obligations.ConfigurationOfThisHardware := by
  refine ⟨lenBias_params, rfl, rfl, legal_params, rfl, rfl, rfl, rfl, rfl, ?_, ?_, exec_eq_execWith⟩
  · intro k
    rw [cap_eq, maxFrame_eq, lenBias_params]
    exact ⟨rfl, rfl⟩
  · exact fun p k => ⟨rfl, maxFrame_eq p k⟩

/-- Settles O45: both ways through `to_u8(e) = e mod 256`. -/
theorem signedByteConversionsAreInverse : Obligations.SignedByteConversionsAreInverse :=
  ⟨fun _ => toI8_toU8, fun b => ⟨toU8_toI8 b, (toI8_range b).1, (toI8_range b).2, toI8_eq_signed b⟩, toU8_toNat⟩

/-- Settles O46. -/
theorem stepRunsTheDecodedCommand : Obligations.StepRunsTheDecodedCommand := fun _ _ _ _ => step_of_decode_ok

end Sys2Proof.Proofs
end

section
/-! SUPPORT. The statements of 10_state.md: STATUS, which command leaves which result in RES, and the invariant of the
block. `Leaves` says once what a command can leave in RES; the table of rule R18 and the invariant both follow from it. -/

namespace Sys2Proof.Laws

open Sys2Proof.Machine Sys2Proof.Claims

/-! ## The header byte -/

/-- Packing is arithmetic on the byte: four times the length field, and the kind below it (30_encoding.md rule R46). -/
theorem packHeader_toNat (kind : BitVec 2) (length : Nat) :
    (packHeader kind length).toNat = 4 * (length % 64) + kind.toNat := by
  have hkind : kind.toNat < 2 ^ 2 := kind.isLt
  have hmask : length % 2 ^ 8 &&& 2 ^ 6 - 1 = length % 64 := by
    rw [Nat.and_two_pow_sub_one_eq_mod]
    omega
  have hlow : kind.toNat % 2 ^ 8 &&& 2 ^ 2 - 1 = kind.toNat := by
    rw [Nat.and_two_pow_sub_one_eq_mod]
    omega
  have hshift : (length % 64) <<< 2 % 2 ^ 8 = (length % 64) <<< 2 := by
    rw [Nat.shiftLeft_eq]
    omega
  calc (packHeader kind length).toNat
      = (length % 2 ^ 8 &&& 2 ^ 6 - 1) <<< 2 % 2 ^ 8 ||| (kind.toNat % 2 ^ 8 &&& 2 ^ 2 - 1) := by simp [packHeader]
    _ = (length % 64) <<< 2 + kind.toNat := by
      rw [hmask, hlow, hshift, Nat.shiftLeft_add_eq_or_of_lt hkind]
    _ = 4 * (length % 64) + kind.toNat := by rw [Nat.shiftLeft_eq]; omega

theorem kindBits_toNat (k : MessageKind) : (kindBits k).toNat = kindNumber k := by cases k <;> rfl

theorem kindNumber_lt (k : MessageKind) : kindNumber k < 3 := by cases k <;> decide

theorem packHeader_kindBits (k : MessageKind) (length : Nat) :
    packHeader (kindBits k) length = byte (4 * length + kindNumber k) := by
  have hk := kindNumber_lt k
  apply BitVec.eq_of_toNat_eq
  rw [packHeader_toNat, kindBits_toNat, BitVec.toNat_ofNat]
  omega

/-- The encoder's bytes are the frame that rules R50 to R56 lay out. -/
theorem frameBytes_eq_frameOf (k : MessageKind) (length : Nat) (id f2 : Byte) (payload : List Byte) :
    frameBytes k length id f2 payload = frameOf (kindNumber k) length id f2 payload := by
  rw [frameBytes_eq, packHeader_kindBits]
  simp [frameOf, layout, covered, sum8, byteSum]

/-! ## Errors and their info -/

/-- A ChecksumMismatch carries two unequal sums and every other error NO_INFO (60_exceptions.md rule R81). -/
def InfoFits (e : CmdError) : Prop :=
  (e.code ≠ .checksumMismatch → e.info = .noInfo) ∧
  (e.code = .checksumMismatch → ∃ expected received, expected ≠ received ∧ e.info = .csumPair expected received)

theorem infoFits_plain {code : ErrorCode} (h : code ≠ .checksumMismatch) : InfoFits code.plain :=
  ⟨fun _ => rfl, fun hc => absurd hc h⟩

theorem infoFits_csumPair {expected received : Byte} (h : expected ≠ received) :
    InfoFits ⟨.checksumMismatch, .csumPair expected received⟩ :=
  ⟨fun hc => absurd rfl hc, fun _ => ⟨expected, received, h, rfl⟩⟩

theorem InfoFits.noInfo_iff {e : CmdError} (h : InfoFits e) : e.info = .noInfo ↔ e.code ≠ .checksumMismatch := by
  refine ⟨fun hinfo hc => ?_, h.1⟩
  obtain ⟨expected, received, -, hpair⟩ := h.2 hc
  rw [hpair] at hinfo
  cases hinfo

/-- All an unpack can answer. -/
theorem unpackedHeader_cases (p : Params) (h : Byte) :
    (unpackKind h = 3#2 ∧ p.permitKind3 = false ∧ unpackedHeader p h = .error ⟨.unknownMessageKind, .noInfo⟩) ∨
    (¬ (unpackKind h = 3#2 ∧ p.permitKind3 = false) ∧ unpackedHeader p h = .ok ⟨unpackKind h, unpackLength h⟩) := by
  unfold unpackedHeader
  split
  · next hbad => exact .inl ⟨hbad.1, hbad.2, rfl⟩
  · next hgood => exact .inr ⟨hgood, rfl⟩

theorem packedHeader_error {p : Params} {kind : BitVec 2} {len : Nat} {e : CmdError}
    (h : packedHeader p kind len = .error e) : InfoFits e := by
  obtain ⟨-, he⟩ | ⟨-, -, -, he⟩ | ⟨-, -, he⟩ := packedHeader_cases p kind len <;> rw [he] at h <;> cases h
  · exact infoFits_plain (by decide)
  · exact infoFits_plain (by decide)

theorem unpackedHeader_error {p : Params} {b : Byte} {e : CmdError} (h : unpackedHeader p b = .error e) :
    InfoFits e := by
  obtain ⟨-, -, he⟩ | ⟨-, he⟩ := unpackedHeader_cases p b <;> rw [he] at h <;> cases h
  exact infoFits_plain (by decide)

theorem encodeFrame_error {p : Params} {k : MessageKind} {id f2 : Byte} {payload : List Byte} {e : CmdError}
    (h : encodeFrame p k id f2 payload = .error e) : InfoFits e := by
  obtain ⟨-, he⟩ | ⟨-, he⟩ := encodeFrame_cases p k id f2 payload <;> rw [he] at h <;> cases h
  exact infoFits_plain (by decide)

theorem decodeBody_error {p : Params} {k : MessageKind} {B : List Byte} {hn : 8 ≤ B.length} {e : CmdError}
    (h : decodeBody p k B hn = .error e) : InfoFits e := by
  unfold decodeBody at h
  dsimp only at h
  split at h
  · cases h; exact infoFits_plain (by decide)
  · split at h
    · next hsum => cases h; exact infoFits_csumPair (Ne.symm hsum)
    · cases h

theorem decodeFrame_error {p : Params} {hint : Option MessageKind} {B : List Byte} {e : CmdError}
    (h : decodeFrame p hint B = .error e) : InfoFits e := by
  unfold decodeFrame at h
  split at h
  · split at h
    · cases h; exact infoFits_plain (by decide)
    · split at h
      · cases h; exact infoFits_plain (by decide)
      · exact decodeBody_error h
  · cases h; exact infoFits_plain (by decide)

/-! ## The decoded record -/

theorem bodyOf_payload (k : MessageKind) (f2 : Byte) (payload : List Byte) : (bodyOf k f2 payload).payload = payload := by
  cases k <;> rfl

/-- The error of a decoded Response was read from a byte, so it is an i8. -/
theorem bodyOf_error_range {k : MessageKind} {f2 : Byte} {payload payload' : List Byte} {error : Int}
    (h : bodyOf k f2 payload = .response error payload') : -128 ≤ error ∧ error ≤ 127 := by
  cases k <;> cases h
  exact toI8_range f2

/-- The record of an accepted buffer: the header names the kind decoded for, the body is read as that kind's variant,
and its payload is what 8 bytes leave of the buffer (43_frame_decoder.md rule R73, steps 3 to 5). -/
theorem decodeBody_ok_record {p : Params} {k : MessageKind} {B : List Byte} {hn : 8 ≤ B.length} {fr : DecodedFrame}
    (h : decodeBody p k B hn = .ok fr) :
    fr.header.kind = kindBits k ∧ ∃ f2 payload, fr.body = bodyOf k f2 payload ∧ payload.length = B.length - 8 := by
  unfold decodeBody at h
  dsimp only at h
  split at h
  · cases h
  · split at h
    · cases h
    · cases h
      exact ⟨rfl, _, _, rfl, memRead_length ..⟩

/-! ## What a command leaves in RES -/

/-- What a command can leave in RES, by the unit it belongs to (10_state.md rule R18, the column "written by"): the
result of its own unit, or an error with the info that goes with it, which no checksum command raises. -/
inductive Leaves (p : Params) (i : Instr) (acc : Byte) : Result → Prop
  | csum (hi : isChecksum i = true) : Leaves p i acc (.csum (writtenAcc i acc))
  | hdrByte {kind : BitVec 2} {len : Nat} {b : Byte} (hi : i = .hdrEnc kind len) (ho : packedHeader p kind len = .ok b) :
      Leaves p i acc (.hdrByte b)
  | hdrFields {b : Byte} {f : Header} (hi : i = .hdrDec b) (ho : unpackedHeader p b = .ok f) :
      Leaves p i acc (.hdrFields f.kind f.length)
  | tx {k : MessageKind} {id f2 : Byte} {payload F : List Byte} (hi : (encoderFields i).isSome = true)
      (ho : encodeFrame p k id f2 payload = .ok F) : Leaves p i acc (.tx F)
  | rx {hint : Option MessageKind} {B : List Byte} {fr : DecodedFrame} (hi : (decoderFields i).isSome = true)
      (ho : decodeFrame p hint B = .ok fr) : Leaves p i acc (.rx fr)
  | err {e : CmdError} (hi : isChecksum i = false) (he : InfoFits e) : Leaves p i acc (.err e.code e.info)

/-- The end of a command with an outcome to write: it leaves its result, or the error raised. -/
theorem leaves_resultOf {p : Params} {i : Instr} {acc : Byte} {α : Type} {f : α → Result} {o : Except CmdError α}
    (hi : isChecksum i = false) (hok : ∀ a, o = .ok a → Leaves p i acc (f a)) (herr : ∀ e, o = .error e → InfoFits e) :
    Leaves p i acc (resultOf f o) := by
  cases o with
  | ok a => exact hok a rfl
  | error e => exact .err hi (herr e rfl)

/-- Every command leaves in RES what rule R18 lets it leave. -/
theorem leaves_writtenRes (p : Params) (i : Instr) (acc : Byte) : Leaves p i acc (writtenRes p i acc) := by
  cases i with
  | csumClr | csumAdd _ | csumBuf _ => exact .csum rfl
  | illegal cmd => exact .err (e := ErrorCode.illegalCommand.plain) rfl (infoFits_plain (by decide))
  | hdrEnc kind len => exact leaves_resultOf rfl (fun _ => .hdrByte rfl) (fun _ => packedHeader_error)
  | hdrDec h => exact leaves_resultOf rfl (fun _ => .hdrFields rfl) (fun _ => unpackedHeader_error)
  | encReq _ _ _ | encRsp _ _ _ | encNtf _ _ _ =>
    exact leaves_resultOf rfl (fun _ => .tx rfl) (fun _ => encodeFrame_error)
  | decReq _ | decRsp _ | decNtf _ | decAny _ =>
    exact leaves_resultOf rfl (fun _ => .rx rfl) (fun _ => decodeFrame_error)

/-- A command that ends leaves an allowed result, and only a checksum command moves ACC. -/
theorem exec_next_cases {i : Instr} {s t : State} (h : exec i s = .next t) :
    Leaves Config.params i s.acc t.res ∧ t.acc = writtenAcc i s.acc ∧ t.pending = s.pending := by
  rw [exec_eq_next] at h
  cases h
  exact ⟨leaves_writtenRes _ _ _, rfl, rfl⟩

/-! ## Commands that leave ACC alone -/

theorem writtenAcc_of_not_checksum {i : Instr} (hi : isChecksum i = false) (acc : Byte) : writtenAcc i acc = acc := by
  cases i with
  | csumClr | csumAdd _ | csumBuf _ => cases hi
  | _ => rfl

/-- What such a command leaves in RES is the same whatever ACC holds. -/
theorem writtenRes_of_not_checksum (p : Params) {i : Instr} (hi : isChecksum i = false) (a b : Byte) :
    writtenRes p i a = writtenRes p i b := by
  cases i with
  | csumClr | csumAdd _ | csumBuf _ => cases hi
  | _ => rfl

/-! ## The STATUS view -/

/-- The byte by its fields: VALID stands at bit 7 and CODE at the bottom (rule R22). -/
theorem statusOf_toNat (r : Result) : (statusOf r).toNat = 128 * (validBit r).toNat + (codeField r).toNat := by
  have hfields : ∀ (v : BitVec 1) (c : BitVec 4), (v ++ 0#3 ++ c).toNat = 128 * v.toNat + c.toNat := by decide
  exact hfields _ _

/-- The model's numbers are those of rule R58's table. -/
theorem number_toNat (code : ErrorCode) : code.number.toNat = codeNumber code := by cases code <;> rfl

theorem codeNumber_range (code : ErrorCode) : 1 ≤ codeNumber code ∧ codeNumber code ≤ 8 := by
  cases code <;> decide

/-! ## Steps with and without an input -/

theorem step_of_nothing {s : State} (hp : s.pending = []) : step s = .refused .noCommandIssued := by
  simp only [step, hp]

/-- A table word that is read is the decode of the command it stands for. -/
theorem decode_of_decodeTableWord {nbits w : Nat} {i : Instr} (h : decodeTableWord nbits w = some i) :
    decode (tableCommand nbits w) = .ok i := by
  unfold decodeTableWord at h
  split at h
  · cases hd : decode (tableCommand nbits w) with
    | ok j => rw [hd] at h; cases h; rfl
    | error f => rw [hd] at h; cases h
  · cases h

/-- A step that answers a next state took the oldest input and no other. -/
theorem step_next_pending {s t : State} (h : step s = .next t) : ∃ e, s.pending = e :: t.pending := by
  obtain ⟨rest, hp, rfl⟩ | ⟨c, rest, i, hp, -, hx⟩ := step_next_cases h
  · exact ⟨_, hp⟩
  · obtain ⟨-, -, hpend⟩ := exec_next_cases hx
    exact ⟨.command c, by rw [hp, hpend]; rfl⟩

/-! ## The invariant -/

/-- A kind packed into a header byte can be read off the byte. -/
theorem resultInv_hdrByte {acc : Byte} {kind : BitVec 2} {len : Nat} {b : Byte}
    (ho : packedHeader Config.params kind len = .ok b) : ResultInv acc (.hdrByte b) := by
  obtain ⟨-, he⟩ | ⟨-, -, -, he⟩ | ⟨-, hkind, he⟩ := packedHeader_cases Config.params kind len <;> rw [he] at ho <;>
    cases ho
  have hne : kind.toNat ≠ 3 := fun h => hkind ⟨BitVec.eq_of_toNat_eq h, permitKind3_params⟩
  have hlt := kind.isLt
  simp only [ResultInv, packHeader_toNat]
  omega

theorem resultInv_hdrFields {acc : Byte} {b : Byte} {f : Header} (ho : unpackedHeader Config.params b = .ok f) :
    ResultInv acc (.hdrFields f.kind f.length) := by
  obtain ⟨-, -, he⟩ | ⟨hkind, he⟩ := unpackedHeader_cases Config.params b <;> rw [he] at ho <;> cases ho
  exact fun h => hkind ⟨BitVec.eq_of_toNat_eq h, permitKind3_params⟩

theorem resultInv_tx {acc : Byte} {k : MessageKind} {id f2 : Byte} {payload F : List Byte}
    (ho : encodeFrame Config.params k id f2 payload = .ok F) : ResultInv acc (.tx F) := by
  obtain ⟨-, he⟩ | ⟨hfit, he⟩ := encodeFrame_cases Config.params k id f2 payload <;> rw [he] at ho <;> cases ho
  rw [lenBias_params, Nat.add_zero] at hfit ⊢
  exact ⟨kindNumber k, id, f2, payload, kindNumber_lt k, hfit, frameBytes_eq_frameOf ..⟩

theorem resultInv_rx {acc : Byte} {hint : Option MessageKind} {B : List Byte} {fr : DecodedFrame}
    (ho : decodeFrame Config.params hint B = .ok fr) : ResultInv acc (.rx fr) := by
  obtain ⟨hn, k, hb⟩ := decodeFrame_ok ho
  obtain ⟨-, hlen, hkind⟩ := decodeBody_ok hb
  obtain ⟨hhdr, f2, payload, hbody, hpay⟩ := decodeBody_ok_record hb
  refine ⟨?_, ?_, fun error payload' hresp => bodyOf_error_range (hbody.symm.trans hresp)⟩
  · rw [hhdr, hkind, kindBits_toNat]
  · rw [lenBias_params] at hlen
    rw [hbody, bodyOf_payload]
    omega

/-- Whatever this hardware's commands leave in RES, it fits the ACC they leave. -/
theorem resultInv_of_leaves {i : Instr} {acc : Byte} {r : Result} (h : Leaves Config.params i acc r) :
    ResultInv (writtenAcc i acc) r := by
  cases h with
  | csum hi => exact rfl
  | hdrByte hi ho => exact resultInv_hdrByte ho
  | hdrFields hi ho => exact resultInv_hdrFields ho
  | tx hi ho => exact resultInv_tx ho
  | rx hi ho => exact resultInv_rx ho
  | err hi he => exact he

/-- Every step establishes the part of the invariant about RES anew, whatever RES and ACC held before it. -/
theorem step_resultInv {s t : State} (h : step s = .next t) : ResultInv t.acc t.res := by
  obtain ⟨rest, -, rfl⟩ | ⟨c, rest, i, -, -, hx⟩ := step_next_cases h
  · exact rfl
  · obtain ⟨hres, hacc, -⟩ := exec_next_cases hx
    rw [hacc]
    exact resultInv_of_leaves hres

theorem safe_of_cons {s : State} {e : HostEvent} {es : List HostEvent} (hp : s.pending = e :: es)
    (h : s.safe = true) : wellTypedEvent e = true ∧ es.all wellTypedEvent = true := by
  simpa [State.safe, hp] using h

/-- Every step carries the part of the invariant about the host's inputs along. -/
theorem step_safe {s t : State} (h : step s = .next t) (hs : s.safe = true) : t.safe = true := by
  obtain ⟨e, hp⟩ := step_next_pending h
  exact (safe_of_cons hp hs).2

/-- A safe state in which something is issued has a step. -/
theorem exists_step_of_safe {s : State} (hs : s.safe = true) (hp : s.pending ≠ []) : ∃ t, step s = .next t := by
  obtain ⟨e, es, hcons⟩ := List.exists_cons_of_ne_nil hp
  obtain ⟨t, hstep, -⟩ := step_of_wellTypedEvent hcons (safe_of_cons hcons hs).1
  exact ⟨t, hstep⟩

end Sys2Proof.Laws

namespace Sys2Proof.Proofs

open Sys2Proof.Machine Sys2Proof.Claims Sys2Proof.Laws

/-- Settles O52: `step_resultInv` for RES, `step_safe` for the inputs, `exists_step_of_safe` for progress. -/
theorem everyStepKeepsTheInvariant : Obligations.EveryStepKeepsTheInvariant := fun _ ⟨_, hsafe⟩ =>
  ⟨fun _ hstep => ⟨step_resultInv hstep, step_safe hstep hsafe⟩, exists_step_of_safe hsafe⟩

/-- Settles O12, by the cases of what a command leaves in RES. -/
theorem resultsComeFromTheirCommands : Obligations.ResultsComeFromTheirCommands := by
  intro i s t h
  obtain ⟨hres, hacc, -⟩ := exec_next_cases h
  rw [hacc]
  generalize t.res = r at hres
  cases hres with
  | csum hi => exact ⟨hi, rfl⟩
  | hdrByte hi ho => exact ⟨_, _, hi⟩
  | hdrFields hi ho => exact ⟨_, hi⟩
  | tx hi ho => exact hi
  | rx hi ho => exact hi
  | err hi he => exact ⟨hi, he.noInfo_iff⟩

/-- Settles O13: the one result is the one written when ACC holds what it holds in s. -/
theorem onlyChecksumCommandsTouchAcc : Obligations.OnlyChecksumCommandsTouchAcc := by
  intro i s hi
  refine ⟨writtenRes Config.params i s.acc, fun a => ?_⟩
  rw [exec_eq_next, writtenAcc_of_not_checksum hi, writtenRes_of_not_checksum _ hi a s.acc]

/-- Settles O10. -/
theorem statusIsAViewOfRes : Obligations.StatusIsAViewOfRes := by
  refine ⟨fun s => ?_, rfl, fun s t h => congrArg statusOf h, codeNumber_range⟩
  rw [State.status, statusOf_toNat]
  cases s.res with
  | err code info => exact congrArg (128 + ·) (number_toNat code)
  | _ => rfl

/-- Settles O47: the word stands in front of the inputs, and taking it gives the state before it was placed. -/
theorem tableWordsRunAsTheNextStep : Obligations.TableWordsRunAsTheNextStep := fun s nbits w _ h =>
  step_of_decode_ok (State.withFetchWord_pending s nbits w) (decode_of_decodeTableWord h)

/-- Settles O48: with something issued, the step is a reset, a command's own, or a fault. -/
theorem noCommandNoStep : Obligations.NoCommandNoStep := by
  refine fun s => ⟨fun h => ?_, step_of_nothing⟩
  cases hp : s.pending with
  | nil => rfl
  | cons e es =>
    cases e with
    | reset => rw [step_of_reset hp] at h; cases h
    | command c =>
      cases hd : decode c with
      | ok i => rw [step_of_decode_ok hp hd, exec_eq_next] at h; cases h
      | error f => rw [step_of_decode_error hp hd] at h; cases h

end Sys2Proof.Proofs
end

section
/-! SUPPORT. The statements of 20_memory.md: what a command does when it is issued again, and commands issued one after
another. The encoder is tied to the decoder first, since the host issues encoded instructions. -/

namespace Sys2Proof.Laws

open Sys2Proof.Machine Sys2Proof.Claims

/-! ## A command issued again -/

/-- Only `CSUM.ADD` answers from the value ACC holds (70_reset_and_hazards.md rule R95). -/
theorem writtenRes_of_not_add (p : Params) {i : Instr} (hi : ∀ b, i ≠ .csumAdd b) (acc acc' : Byte) :
    writtenRes p i acc = writtenRes p i acc' := by
  cases i with
  | csumAdd b => exact absurd rfl (hi b)
  | _ => rfl

/-- Clearing and summing set ACC, the other commands keep it: done again, neither changes it (rule R35). -/
theorem writtenAcc_writtenAcc_of_not_add {i : Instr} (hi : ∀ b, i ≠ .csumAdd b) (acc : Byte) :
    writtenAcc i (writtenAcc i acc) = writtenAcc i acc := by
  cases i with
  | csumAdd b => exact absurd rfl (hi b)
  | _ => rfl

/-- `CSUM.ADD` is the addition of bytes (41_checksum.md rule R65). -/
theorem writtenAcc_csumAdd (b acc : Byte) : writtenAcc (.csumAdd b) acc = acc + b := by
  simp [writtenAcc, BitVec.ofNat_add]

theorem exec_csumAdd_acc {b : Byte} {s t : State} (h : exec (.csumAdd b) s = .next t) : t.acc = s.acc + b := by
  obtain ⟨-, hacc, -⟩ := exec_next_cases h
  rw [hacc, writtenAcc_csumAdd]

/-- The state a command leaves is a fixed point of that command, unless it adds to ACC. -/
theorem exec_again_of_not_add {i : Instr} {s t : State} (hi : ∀ b, i ≠ .csumAdd b) (h : exec i s = .next t) :
    exec i t = .next t := by
  rw [exec_eq_next] at h
  cases h
  rw [exec_eq_next, writtenAcc_writtenAcc_of_not_add hi, writtenRes_of_not_add _ hi _ s.acc]

/-! ## Commands issued one after another -/

/-- The decoder reads a well-formed instruction back from its command (30_encoding.md rules R41 to R43). -/
theorem decode_encode {i : Instr} (hi : i.wellFormed = true) : decode (encode i) = .ok i := by
  cases i with
  | illegal cmd => exact decode_of_no_row ((selectOp_eq_none cmd).2 hi) _
  | encRsp id error payload =>
    have herror : -128 ≤ error ∧ error ≤ 127 := (isI8_iff error).1 hi
    refine (decode_of_row rfl _).trans ?_
    simp [readOperands, bind_ok_iff, readError_ok_iff, herror]
  | _ =>
    refine (decode_of_row rfl _).trans ?_
    simp [readOperands, bind_ok_iff]

/-- A command neither reads nor takes any of the host's further inputs (the model's own field, log entry 1). -/
theorem exec_setPending (i : Instr) (s : State) :
    ∃ u : State, ∀ es, exec i (s.setPending es) = .next (u.setPending es) :=
  ⟨{ s with acc := writtenAcc i s.acc, res := writtenRes Config.params i s.acc },
    fun es => exec_eq_next i (s.setPending es)⟩

/-- Issued first, a well-formed instruction takes effect in the next step. -/
theorem step_of_issue {i : Instr} (hi : i.wellFormed = true) (s : State) (es : List HostEvent) :
    step (s.setPending (issue i :: es)) = exec i (s.setPending es) :=
  step_of_decode_ok rfl (decode_encode hi)

theorem execAll_cons_of_next {i : Instr} {s t : State} (is : List Instr) (h : exec i s = .next t) :
    execAll (i :: is) s = execAll is t := by
  simp only [execAll, h]

end Sys2Proof.Laws

namespace Sys2Proof.Proofs

open Sys2Proof.Machine Sys2Proof.Claims Sys2Proof.Laws

/-- Settles O17: the first part is `exec_again_of_not_add`, the second the sum of two additions. -/
theorem repeatedCommandsAreIdempotentButForAdd : Obligations.RepeatedCommandsAreIdempotentButForAdd := by
  refine ⟨fun i s t hi h => ⟨exec_again_of_not_add hi h, fun hnot => ?_⟩, fun b s t u ht hu => ⟨?_, fun hb heq => ?_⟩⟩
  · obtain ⟨-, hacc, -⟩ := exec_next_cases h
    rw [hacc, writtenAcc_of_not_checksum hnot]
  · rw [exec_csumAdd_acc hu, exec_csumAdd_acc ht, BitVec.toNat_add, BitVec.toNat_add]
    omega
  · rw [exec_csumAdd_acc hu] at heq
    exact hb (add_eq_left.1 heq)

/-- Settles O49, by induction on the instructions: the run's first step is the first instruction's effect, which leaves
the inputs after it alone. -/
theorem commandsTakeEffectInIssueOrder : Obligations.CommandsTakeEffectInIssueOrder := by
  intro is s rest hwf
  induction is generalizing s with
  | nil => exact ⟨s.setPending rest, rfl, rfl, run_zero _⟩
  | cons i is ih =>
    obtain ⟨hi, his⟩ := List.forall_mem_cons.1 hwf
    obtain ⟨u, hu⟩ := exec_setPending i s
    obtain ⟨t, hall, hpend, hrun⟩ := ih u his
    refine ⟨t, (execAll_cons_of_next is (hu rest)).trans hall, hpend, ?_⟩
    exact (run_succ_of_next is.length ((step_of_issue hi s _).trans (hu _))).trans hrun

end Sys2Proof.Proofs
end

section
/-! SUPPORT. The statements of 30_encoding.md: the command map and the round trip through it, the header byte and its
reserved kind, and the pseudo-commands. -/

namespace Sys2Proof.Laws

open Sys2Proof.Machine Sys2Proof.Claims

/-! ## Command words -/

/-- The model's test of a word is rule R43's list of numbers. -/
theorem isIllegalWord_iff_illegalNumber (c : Byte) : isIllegalWord c = true ↔ illegalNumber c.toNat := by
  simp [isIllegalWord, ← BitVec.toNat_inj, illegalNumber, or_assoc]

/-- Four illegal words stand among the words of Z = 0; the other 240 words are all illegal (rule R43). -/
theorem illegalNumber_count : ((List.range 256).filter fun n => decide (illegalNumber n)).length = 244 := by
  have hlow : ((List.range 16).filter fun n => decide (illegalNumber n)).length = 4 := by decide
  have hhigh : ((List.range 240).map (16 + ·)).filter (fun n => decide (illegalNumber n)) =
      (List.range 240).map (16 + ·) := by
    simp [List.filter_eq_self, illegalNumber]
  rw [show 256 = 16 + 240 from rfl, List.range_add, List.filter_append, List.length_append, hlow, hhigh,
    List.length_map, List.length_range]

/-- A row whose operands are read is the decode of its word. -/
theorem decode_ok_of_row {c : Byte} {op : Op} {o : Operands} {i : Instr} (hrow : selectOp c = some op)
    (hread : readOperands op o = .ok i) : decode ⟨c, o⟩ = .ok i :=
  (decode_of_row hrow o).trans hread

/-- What a row reads is well-formed, and its encoding has the row's word (rules R41, R42). -/
theorem readOperands_ok {c : Byte} {op : Op} {o : Operands} {i : Instr} (hrow : (c, op) ∈ commandMap)
    (hread : readOperands op o = .ok i) : i.wellFormed = true ∧ (encode i).cmd = c := by
  rw [readOperands_ok_iff] at hread
  cases op <;> obtain rfl : c = _ := by simpa [commandMap] using hrow
  case csumClr =>
    subst hread
    exact ⟨rfl, rfl⟩
  case encRsp =>
    obtain ⟨⟨-, herror, -⟩, rfl⟩ := hread
    exact ⟨(isI8_iff _).2 herror, rfl⟩
  all_goals
    obtain ⟨-, rfl⟩ := hread
    exact ⟨rfl, rfl⟩

/-- What the decoder reads is well-formed (rule R14) and keeps its command word. -/
theorem decode_ok {c : Command} {i : Instr} (h : decode c = .ok i) : i.wellFormed = true ∧ (encode i).cmd = c.cmd := by
  obtain ⟨op, hrow, hd⟩ | ⟨hw, hd⟩ := decode_cases c
  · exact readOperands_ok hrow (hd.symm.trans h)
  · rw [hd] at h
    cases h
    exact ⟨hw, rfl⟩

/-- The illegal words, and no others, decode to the illegal command of that word (rule R43): read as that command, a
word is well-formed. -/
theorem decode_eq_illegal_iff (c : Byte) (o : Operands) :
    decode ⟨c, o⟩ = .ok (.illegal c) ↔ illegalNumber c.toNat := by
  rw [← isIllegalWord_iff_illegalNumber]
  exact ⟨fun h => (decode_ok h).1, fun hw => decode_of_no_row ((selectOp_eq_none c).2 hw) o⟩

/-! ## The header byte -/

theorem unpackKind_toNat (h : Byte) : (unpackKind h).toNat = h.toNat % 4 := by
  have hmask : h.toNat &&& (0x3#8).toNat = h.toNat % 2 ^ 2 := Nat.and_two_pow_sub_one_eq_mod _ 2
  rw [unpackKind, BitVec.toNat_setWidth, BitVec.toNat_and, hmask, Nat.mod_mod]
  rfl

theorem unpackLength_toNat (h : Byte) : (unpackLength h).toNat = h.toNat / 4 := by
  have hlt := h.isLt
  have hmask : h.toNat >>> 2 &&& (0x3F#8).toNat = h.toNat >>> 2 % 2 ^ 6 := Nat.and_two_pow_sub_one_eq_mod _ 6
  rw [unpackLength, BitVec.toNat_setWidth, BitVec.toNat_and, BitVec.toNat_ushiftRight, hmask, Nat.mod_mod,
    Nat.shiftRight_eq_div_pow]
  omega

theorem packHeader_unpack (h : Byte) : packHeader (unpackKind h) (unpackLength h).toNat = h := by
  have hlt := h.isLt
  apply BitVec.eq_of_toNat_eq
  rw [packHeader_toNat, unpackKind_toNat, unpackLength_toNat]
  omega

theorem unpackKind_packHeader (kind : BitVec 2) (length : Nat) : unpackKind (packHeader kind length) = kind := by
  have hkind := kind.isLt
  apply BitVec.eq_of_toNat_eq
  rw [unpackKind_toNat, packHeader_toNat]
  omega

theorem unpackLength_packHeader (kind : BitVec 2) (length : BitVec 6) :
    unpackLength (packHeader kind length.toNat) = length := by
  have hkind := kind.isLt
  have hlength := length.isLt
  apply BitVec.eq_of_toNat_eq
  rw [unpackLength_toNat, packHeader_toNat]
  omega

/-- Packing, with the byte written as rule R46 writes it. -/
theorem packHeader_eq_byte (kind : BitVec 2) (length : Nat) :
    packHeader kind length = byte (4 * length + kind.toNat) := by
  have hkind := kind.isLt
  apply BitVec.eq_of_toNat_eq
  rw [packHeader_toNat, BitVec.toNat_ofNat]
  omega

theorem unpackKind_eq (h : Byte) : unpackKind h = BitVec.ofNat 2 (h.toNat % 4) := by
  rw [← unpackKind_toNat, BitVec.ofNat_toNat, BitVec.setWidth_eq]

theorem unpackLength_eq (h : Byte) : unpackLength h = BitVec.ofNat 6 (h.toNat / 4) := by
  rw [← unpackLength_toNat, BitVec.ofNat_toNat, BitVec.setWidth_eq]

theorem unpackKind_eq_three_iff (h : Byte) : unpackKind h = 3#2 ↔ h.toNat % 4 = 3 := by
  rw [← unpackKind_toNat, ← BitVec.toNat_inj]
  rfl

/-- `HDR.ENC` by rule R61, its errors in their order. -/
theorem execWith_hdrEnc (p : Params) (kind : BitVec 2) (len : Nat) (s : State) :
    execWith p (.hdrEnc kind len) s = .next (withRes s (
      if 63 < len then .err .invalidLength .noInfo
      else if kind.toNat = 3 ∧ p.permitKind3 = false then .err .unknownMessageKind .noInfo
      else .hdrByte (byte (4 * len + kind.toNat)))) := by
  rw [execWith_eq_next, writtenRes]
  obtain ⟨hlen, he⟩ | ⟨hlen, hkind, hperm, he⟩ | ⟨hlen, hok, he⟩ := packedHeader_cases p kind len
  · rw [he, if_pos hlen]; rfl
  · rw [he, if_neg hlen.not_gt, if_pos ⟨congrArg BitVec.toNat hkind, hperm⟩]; rfl
  · have hgood : ¬ (kind.toNat = 3 ∧ p.permitKind3 = false) := fun ⟨hkind, hperm⟩ =>
      hok ⟨BitVec.eq_of_toNat_eq hkind, hperm⟩
    rw [he, if_neg hlen.not_gt, if_neg hgood, packHeader_eq_byte]; rfl

/-- `HDR.DEC` by rule R62. -/
theorem execWith_hdrDec (p : Params) (h : Byte) (s : State) :
    execWith p (.hdrDec h) s = .next (withRes s (
      if h.toNat % 4 = 3 ∧ p.permitKind3 = false then .err .unknownMessageKind .noInfo
      else .hdrFields (BitVec.ofNat 2 (h.toNat % 4)) (BitVec.ofNat 6 (h.toNat / 4)))) := by
  rw [execWith_eq_next, writtenRes]
  obtain ⟨hkind, hperm, he⟩ | ⟨hok, he⟩ := unpackedHeader_cases p h
  · rw [he, if_pos ⟨(unpackKind_eq_three_iff h).1 hkind, hperm⟩]; rfl
  · rw [unpackKind_eq_three_iff] at hok
    rw [he, if_neg hok, unpackKind_eq, unpackLength_eq]; rfl

/-! ## The reserved kind -/

/-- No decoder reads past a kind-3 header, whatever its hint and PERMIT_KIND3 are (rule R49). -/
theorem decodeFrame_of_kind_three (p : Params) (hint : Option MessageKind) {h : Byte} {B : List Byte}
    (hB : 7 ≤ B.length) (h3 : h.toNat % 4 = 3) :
    decodeFrame p hint (h :: B) = .error ⟨.unknownMessageKind, .noInfo⟩ := by
  have hn : 8 ≤ (h :: B).length := Nat.succ_le_succ hB
  have hkind : kindOfBits (unpackKind (memReadByte (h :: B) 0 (by omega))) = none :=
    (kindOfBits_eq_none _).2 ((unpackKind_eq_three_iff h).2 h3)
  simp only [decodeFrame, dif_pos hn, hkind, ErrorCode.plain]

/-- The first byte of a frame `ENCODE` produces names the kind encoded for (rule R68). -/
theorem encodeFrame_ok_kind {p : Params} {k : MessageKind} {id f2 h : Byte} {payload F : List Byte}
    (ho : encodeFrame p k id f2 payload = .ok (h :: F)) : h.toNat % 4 = kindNumber k := by
  obtain ⟨-, he⟩ | ⟨-, he⟩ := encodeFrame_cases p k id f2 payload
  · rw [he] at ho; cases ho
  · rw [he, frameBytes_eq] at ho
    cases ho
    rw [← unpackKind_toNat, unpackKind_packHeader, kindBits_toNat]

/-! ## Checksum sequences -/

theorem exec_csumAdd (b : Byte) (s : State) :
    exec (.csumAdd b) s = .next ⟨s.acc + b, .csum (s.acc + b), s.pending⟩ := by
  rw [← writtenAcc_csumAdd]
  exact exec_eq_next _ _

/-- One `CSUM.ADD` a byte, from a state a checksum command left: ACC grows by the sum and RES shows it (rules
R65, R67). -/
theorem execAll_csumAdd (bs : List Byte) (a : Byte) (es : List HostEvent) :
    execAll (bs.map .csumAdd) ⟨a, .csum a, es⟩ = .next ⟨a + sum8 bs, .csum (a + sum8 bs), es⟩ := by
  induction bs generalizing a with
  | nil => simp [execAll, sum8_nil]
  | cons b bs ih =>
    rw [List.map_cons, execAll_cons_of_next _ (exec_csumAdd b _), ih, sum8_cons, add_assoc]

/-- `CSUM.CLR` and one `CSUM.ADD` a byte leave the sum of the bytes, whatever stood in ACC and RES. -/
theorem execAll_csumSeq (bs : List Byte) (s : State) :
    execAll (expandPseudo (.csumSeq bs)) s = .next ⟨sum8 bs, .csum (sum8 bs), s.pending⟩ := by
  rw [expandPseudo, execAll_cons_of_next _ (exec_eq_next .csumClr s)]
  exact (execAll_csumAdd bs 0 s.pending).trans (by rw [zero_add])

theorem csumSeq_wellFormed (bs : List Byte) : ∀ i ∈ expandPseudo (.csumSeq bs), i.wellFormed = true := by
  simp [expandPseudo, Instr.wellFormed]

end Sys2Proof.Laws

namespace Sys2Proof.Proofs

open Sys2Proof.Machine Sys2Proof.Claims Sys2Proof.Laws

/-- Settles O3: the word selects the instruction's row, and every operand is read back as it was written. -/
theorem decodeOfEncodeIsTheInstruction : Obligations.DecodeOfEncodeIsTheInstruction := fun _ => decode_encode

/-- Settles O1: the rows by `readOperands_ok_iff`, the illegal words by `decode_eq_illegal_iff`. -/
theorem commandWordsDecodeByTheMap : Obligations.CommandWordsDecodeByTheMap := by
  refine ⟨fun o => ⟨?_, ?_, ?_, ?_, ?_, ?_, ?_, ?_⟩, decode_eq_illegal_iff, illegalNumber_count⟩
  · exact fun hkind => decode_ok_of_row rfl ((readOperands_ok_iff .hdrEnc o _).2 ⟨hkind, rfl⟩)
  · exact fun hh => decode_ok_of_row rfl ((readOperands_ok_iff .hdrDec o _).2 ⟨hh, rfl⟩)
  · exact fun hid hsub hpay => decode_ok_of_row rfl ((readOperands_ok_iff .encReq o _).2 ⟨⟨hid, hsub, hpay⟩, rfl⟩)
  · exact fun hid hlo hhi hpay =>
      decode_ok_of_row rfl ((readOperands_ok_iff .encRsp o _).2 ⟨⟨hid, ⟨hlo, hhi⟩, hpay⟩, rfl⟩)
  · exact fun hid hev hpay => decode_ok_of_row rfl ((readOperands_ok_iff .encNtf o _).2 ⟨⟨hid, hev, hpay⟩, rfl⟩)
  · exact fun hbuf =>
      ⟨decode_ok_of_row rfl ((readOperands_ok_iff .decReq o _).2 ⟨hbuf, rfl⟩),
        decode_ok_of_row rfl ((readOperands_ok_iff .decRsp o _).2 ⟨hbuf, rfl⟩),
        decode_ok_of_row rfl ((readOperands_ok_iff .decNtf o _).2 ⟨hbuf, rfl⟩),
        decode_ok_of_row rfl ((readOperands_ok_iff .decAny o _).2 ⟨hbuf, rfl⟩),
        decode_ok_of_row rfl ((readOperands_ok_iff .csumBuf o _).2 ⟨hbuf, rfl⟩)⟩
  · exact decode_ok_of_row rfl ((readOperands_ok_iff .csumClr o _).2 rfl)
  · exact fun hb => decode_ok_of_row rfl ((readOperands_ok_iff .csumAdd o _).2 ⟨hb, rfl⟩)

/-- Settles O2: a command that decodes has the word its instruction is encoded with, whose fields are read off. -/
theorem commandFieldsSelectUnitAndKind : Obligations.CommandFieldsSelectUnitAndKind := by
  intro c o i h
  obtain ⟨-, rfl : (encode i).cmd = c⟩ := decode_ok h
  cases i with
  | illegal cmd => exact ⟨fun _ => rfl, by simp [groupOf], by simp [selectOf]⟩
  | _ => simp [encode, groupOf, selectOf]

/-- Settles O4: what is read is well-formed, so the round trip of O3 takes it. -/
theorem decodedCommandsAreWellFormed : Obligations.DecodedCommandsAreWellFormed := by
  intro c i h
  obtain ⟨hwf, hcmd⟩ := decode_ok h
  exact ⟨hwf, hcmd, decode_encode hwf⟩

/-- Settles O22: HDR.DEC and HDR.ENC by rules R61 and R62 at kind 3, the frame commands by the kind their header byte
names. -/
theorem kindThreeNamesNoVariant : Obligations.KindThreeNamesNoVariant := by
  refine fun p => ⟨?_, ?_, ?_, ?_⟩
  · intro h s h3
    rw [execWith_hdrDec, h3]
    cases p.permitKind3 <;> rfl
  · intro i hint h B s hi hB h3
    obtain ⟨kind, -, hx⟩ := execWith_of_decoderFields hi
    rw [hx, decodeWith, finish_next, decodeFrame_of_kind_three p kind hB h3]
    rfl
  · intro i s t h F hi he hr
    obtain ⟨⟨k, id, f2, payload⟩, hfields⟩ := Option.isSome_iff_exists.1 hi
    obtain ⟨kind, -, hx⟩ := execWith_of_encoderFields hfields
    rw [hx, encodeWith, finish_next] at he
    cases he
    rw [encodeFrame_ok_kind (resultOf_tx_eq_tx.1 hr)]
    exact (kindNumber_lt kind).ne
  · intro len s
    rw [execWith_hdrEnc]
    cases p.permitKind3 <;> rfl

/-- Settles O27: issued commands take effect in their order (O49), and in order they leave the sum. -/
theorem pseudoCommandsExpandAndRun : Obligations.PseudoCommandsExpandAndRun := by
  refine ⟨fun _ => rfl, fun _ => rfl, fun bs s rest => ?_⟩
  obtain ⟨t, hall, -, hrun⟩ := commandsTakeEffectInIssueOrder _ s rest (csumSeq_wellFormed bs)
  rw [execAll_csumSeq] at hall
  cases hall
  simpa [expandPseudo] using hrun

/-- Settles O5: each word selects its row of the map, or none. -/
theorem sampleCommandWordsDecode : Obligations.SampleCommandWordsDecode :=
  ⟨rfl, rfl, rfl, rfl, rfl, rfl, rfl⟩

/-- Settles O6: an illegal word decodes to the illegal command, whatever the operand record. -/
theorem illegalWordsRaiseIllegalCommand : Obligations.IllegalWordsRaiseIllegalCommand := by
  refine ⟨fun c s => exec_eq_next (.illegal c) s, fun c o s rest hc hp => ?_⟩
  have hstep := step_of_decode_ok hp ((decode_eq_illegal_iff c o).2 hc)
  have hstatus : statusOf (.err .illegalCommand .noInfo) = 0x88 := by decide
  exact ⟨_, hstep.trans (exec_eq_next _ _), rfl, rfl, hstatus, rfl⟩

/-- Settles O8, by evaluating the assembler on the lines. -/
theorem listingExamplesAssemble : Obligations.ListingExamplesAssemble := by
  unfold Obligations.ListingExamplesAssemble
  decide

/-- Settles O19: both directions from the values of the two fields and of the byte. -/
theorem headerPackAndUnpackAreInverse : Obligations.HeaderPackAndUnpackAreInverse :=
  ⟨packHeader_toNat, fun h => ⟨unpackKind_toNat h, unpackLength_toNat h, packHeader_unpack h⟩,
    fun kind length => ⟨unpackKind_packHeader kind _, unpackLength_packHeader kind length⟩⟩

end Sys2Proof.Proofs
end

section
/-! SUPPORT. The statements of 40_header_codec.md: the two header commands of this hardware, and the byte they pass
between them. -/

namespace Sys2Proof.Laws

open Sys2Proof.Machine Sys2Proof.Claims

/-! ## The header commands of this hardware -/

/-- `HDR.ENC` at this hardware's PERMIT_KIND3 (rule R61). -/
theorem exec_hdrEnc (kind : BitVec 2) (len : Nat) (s : State) :
    exec (.hdrEnc kind len) s = .next (withRes s (
      if 63 < len then .err .invalidLength .noInfo
      else if kind.toNat = 3 then .err .unknownMessageKind .noInfo
      else .hdrByte (byte (4 * len + kind.toNat)))) := by
  simp only [exec_eq_execWith, execWith_hdrEnc, permitKind3_params, and_true]

/-- `HDR.DEC` at this hardware's PERMIT_KIND3 (rule R62). -/
theorem exec_hdrDec (h : Byte) (s : State) :
    exec (.hdrDec h) s = .next (withRes s (
      if h.toNat % 4 = 3 then .err .unknownMessageKind .noInfo
      else .hdrFields (BitVec.ofNat 2 (h.toNat % 4)) (BitVec.ofNat 6 (h.toNat / 4)))) := by
  simp only [exec_eq_execWith, execWith_hdrDec, permitKind3_params, and_true]

/-- `HDR.ENC` packs every length of six bits with every kind but 3. -/
theorem exec_hdrEnc_packs {kind : BitVec 2} {len : Nat} (hlen : len ≤ 63) (hkind : kind.toNat ≠ 3) (s : State) :
    exec (.hdrEnc kind len) s = .next (withRes s (.hdrByte (byte (4 * len + kind.toNat)))) := by
  rw [exec_hdrEnc, if_neg hlen.not_gt, if_neg hkind]

/-- The fields `HDR.DEC` leaves are the byte's, and their kind is not 3. -/
theorem exec_hdrDec_fields {h : Byte} {s t : State} {kind : BitVec 2} {length : BitVec 6}
    (he : exec (.hdrDec h) s = .next t) (hr : t.res = .hdrFields kind length) :
    kind.toNat = h.toNat % 4 ∧ length.toNat = h.toNat / 4 ∧ kind.toNat ≠ 3 := by
  have hlt := h.isLt
  by_cases h3 : h.toNat % 4 = 3
  · rw [exec_hdrDec, if_pos h3] at he
    cases he
    cases hr
  · rw [exec_hdrDec, if_neg h3] at he
    cases he
    cases hr
    simp only [BitVec.toNat_ofNat]
    omega

end Sys2Proof.Laws

namespace Sys2Proof.Proofs

open Sys2Proof.Machine Sys2Proof.Claims Sys2Proof.Laws

/-- Settles O20: rule R61's order under every configuration, and its three outcomes on this hardware. -/
theorem hdrEncPacksOrFails : Obligations.HdrEncPacksOrFails := by
  refine ⟨fun o hkind => ?_, execWith_hdrEnc, fun kind len s hlen hkind => ?_, fun kind len s hlen => ?_,
    fun len s hlen => ?_⟩
  · exact decode_ok_of_row rfl ((readOperands_ok_iff .hdrEnc o _).2 ⟨hkind, rfl⟩)
  · exact exec_hdrEnc_packs hlen hkind.ne s
  · rw [exec_hdrEnc, if_pos hlen]
  · rw [exec_hdrEnc, if_neg hlen.not_gt, if_pos (by decide)]

/-- Settles O21: rule R62 under every configuration and on this hardware; packing the fields of a byte gives the byte,
since it is four times its quotient by 4 and its remainder. -/
theorem hdrDecUnpacksOrFails : Obligations.HdrDecUnpacksOrFails := by
  refine ⟨fun o hh => ?_, execWith_hdrDec, fun h s hkind => ?_, fun h s hkind => ?_,
    fun h s t kind length he hr => ?_⟩
  · exact decode_ok_of_row rfl ((readOperands_ok_iff .hdrDec o _).2 ⟨hh, rfl⟩)
  · rw [exec_hdrDec, if_neg hkind.ne]
  · rw [exec_hdrDec, if_pos hkind]
  · obtain ⟨hkind, hlength, hne⟩ := exec_hdrDec_fields he hr
    have hbyte : byte (4 * length.toNat + kind.toNat) = h := by
      rw [hkind, hlength, Nat.div_add_mod, byte, BitVec.ofNat_toNat, BitVec.setWidth_eq]
    rw [exec_hdrEnc_packs (Nat.le_of_lt_succ length.isLt) hne, hbyte]

end Sys2Proof.Proofs
end

section
/-! SUPPORT. The statements of 41_checksum.md: `sum8` as a sum of bytes, what a flipped bit adds or takes away, and the
effects of the three checksum commands. -/

namespace Sys2Proof.Laws

open Sys2Proof.Machine Sys2Proof.Claims

/-! ## The sum of a sequence -/

theorem sum8_eq_byte (B : List Byte) : sum8 B = byte (byteSum B) := rfl

theorem sum8_toNat (B : List Byte) : (sum8 B).toNat = byteSum B % 256 :=
  BitVec.toNat_ofNat _ _

theorem byte_mod (n : Nat) : byte (n % 256) = byte n :=
  BitVec.eq_of_toNat_eq (by simp)

/-- Adding byte after byte, each time mod 256, is the addition of bytes (rule R63). -/
theorem foldl_add_mod_eq_add_sum8 (B : List Byte) (a : Byte) :
    B.foldl (fun (n : Nat) b => (n + b.toNat) % 256) a.toNat = (a + sum8 B).toNat := by
  induction B generalizing a with
  | nil => rw [List.foldl_nil, sum8_nil, add_zero]
  | cons b B ih =>
    have hstep : (a.toNat + b.toNat) % 256 = (a + b).toNat := (BitVec.toNat_add a b).symm
    rw [List.foldl_cons, hstep, ih, sum8_cons, add_assoc]

/-- The sum of a concatenation (rule R67, law 2). -/
theorem sum8_append (A B : List Byte) : sum8 (A ++ B) = sum8 A + sum8 B := by
  induction A with
  | nil => rw [List.nil_append, sum8_nil, zero_add]
  | cons a A ih => rw [List.cons_append, sum8_cons, sum8_cons, ih, add_assoc]

/-- The order of the bytes does not matter (rule R67, law 3). -/
theorem sum8_perm {A B : List Byte} (h : A.Perm B) : sum8 A = sum8 B :=
  congrArg byte (h.map BitVec.toNat).sum_nat

/-- A byte in the middle, taken out to the front. -/
theorem sum8_middle (A B : List Byte) (x : Byte) : sum8 (A ++ x :: B) = x + sum8 (A ++ B) := by
  rw [sum8_perm List.perm_middle, sum8_cons]

/-- What one byte gains and another loses does not show (rule R67, law 6). -/
theorem sum8_transfer (A B C : List Byte) (x y d : Byte) :
    sum8 (A ++ (x + d) :: (B ++ (y - d) :: C)) = sum8 (A ++ x :: (B ++ y :: C)) := by
  simp only [sum8_append, sum8_cons]
  abel

/-- The sum tells two values of one byte apart, whatever stands around it (rule R67, law 4). -/
theorem sum8_middle_inj {A B : List Byte} {x y : Byte} : sum8 (A ++ x :: B) = sum8 (A ++ y :: B) ↔ x = y := by
  rw [sum8_middle, sum8_middle, add_left_inj]

/-! ## A flipped bit -/

theorem xor_eq_add_of_and_eq_zero {w : Nat} {x m : BitVec w} (h : x &&& m = 0#w) : x ^^^ m = x + m := by
  rw [BitVec.add_eq_or_of_and_eq_zero x m h]
  ext i hi
  have hbit : (x[i] && m[i]) = false := by rw [← BitVec.getElem_and, h, BitVec.getElem_zero]
  rw [BitVec.getElem_xor, BitVec.getElem_or]
  cases hx : x[i] with
  | false => simp
  | true =>
    have hm : m[i] = false := by simpa [hx] using hbit
    simp [hm]

theorem xor_eq_sub_of_and_eq_self {w : Nat} {x m : BitVec w} (h : x &&& m = m) : x ^^^ m = x - m := by
  have hclear : (x ^^^ m) &&& m = 0#w := by
    ext i hi
    have hbit : (x[i] && m[i]) = m[i] := by rw [← BitVec.getElem_and, h]
    simp [Bool.and_xor_distrib_right, hbit]
  rw [eq_sub_iff_add_eq, ← xor_eq_add_of_and_eq_zero hclear, BitVec.xor_assoc, BitVec.xor_self, BitVec.xor_zero]

/-- Flipping bit j adds `2^j` where the bit was clear and takes it away where the bit was set. -/
theorem xor_twoPow {w : Nat} (x : BitVec w) (j : Nat) :
    x ^^^ BitVec.twoPow w j = if x.getLsbD j then x - BitVec.twoPow w j else x + BitVec.twoPow w j := by
  have hand := BitVec.and_twoPow x j
  split at hand
  · next hset => rw [if_pos hset, xor_eq_sub_of_and_eq_self hand]
  · next hclear => rw [if_neg hclear, xor_eq_add_of_and_eq_zero hand]

theorem xor_twoPow_ne_self {w j : Nat} (hj : j < w) (x : BitVec w) : x ^^^ BitVec.twoPow w j ≠ x := by
  intro h
  have hbit : (x ^^^ BitVec.twoPow w j).getLsbD j = x.getLsbD j := by rw [h]
  simp [hj] at hbit

theorem byte_two_pow (j : Nat) : byte (2 ^ j) = BitVec.twoPow 8 j :=
  BitVec.eq_of_toNat_eq (by simp)

/-! ## The checksum commands -/

theorem exec_csumClr (s : State) : exec .csumClr s = .next ⟨0, .csum 0, s.pending⟩ := exec_eq_next _ _

theorem exec_csumBuf (buf : List Byte) (s : State) :
    exec (.csumBuf buf) s = .next ⟨sum8 buf, .csum (sum8 buf), s.pending⟩ := exec_eq_next _ _

theorem exec_csumBuf_congr {A B : List Byte} (h : sum8 A = sum8 B) (s : State) :
    exec (.csumBuf A) s = exec (.csumBuf B) s := by
  rw [exec_csumBuf, exec_csumBuf, h]

/-- One `CSUM.ADD` a byte from any state: only with no byte at all may RES show something else than ACC. -/
theorem execAll_csumAdd_acc (B : List Byte) (s : State) :
    ∃ t, execAll (B.map .csumAdd) s = .next t ∧ t.acc = s.acc + sum8 B := by
  cases B with
  | nil => exact ⟨s, rfl, by rw [sum8_nil, add_zero]⟩
  | cons b B =>
    refine ⟨_, (execAll_cons_of_next _ (exec_csumAdd b s)).trans (execAll_csumAdd B _ _), ?_⟩
    rw [sum8_cons, add_assoc]

end Sys2Proof.Laws

namespace Sys2Proof.Proofs

open Sys2Proof.Machine Sys2Proof.Claims Sys2Proof.Laws

/-- Settles O23: the byte by byte sum is `foldl_add_mod_eq_add_sum8` started at 0. -/
theorem sumEightIsTheRunningSum : Obligations.SumEightIsTheRunningSum := by
  refine ⟨sum8_toNat, sum8_nil, fun B => ?_⟩
  calc (sum8 B).toNat
      = (0 + sum8 B).toNat := by rw [zero_add]
    _ = B.foldl (fun (n : Nat) b => (n + b.toNat) % 256) 0 := (foldl_add_mod_eq_add_sum8 B 0).symm

/-- Settles O26: the sequence of adds after a clear is `execAll_csumSeq`, of the pseudo-command. -/
theorem csumBufSumsTheBuffer : Obligations.CsumBufSumsTheBuffer := by
  refine ⟨fun o hbuf => ?_, fun buf s => ?_, fun buf s => ?_⟩
  · exact decode_ok_of_row rfl ((readOperands_ok_iff .csumBuf o _).2 ⟨hbuf, rfl⟩)
  · rw [exec_csumBuf, byte_mod, sum8_eq_byte]
  · exact (execAll_csumSeq buf s).trans (exec_csumBuf buf s).symm

/-- Settles O28: every law is one of `sum8`, which is all that the commands leave in ACC and RES. -/
theorem checksumFoldConcatenationAndOrder : Obligations.ChecksumFoldConcatenationAndOrder := by
  refine ⟨fun B s => ?_, fun A B => ?_, fun A B h => exec_csumBuf_congr (sum8_perm h),
    fun A B C x y d => exec_csumBuf_congr (sum8_transfer A B C x y d)⟩
  · obtain ⟨t, hall, hacc⟩ := execAll_csumAdd_acc B s
    refine ⟨t, hall, ?_⟩
    rw [hacc, BitVec.toNat_add, sum8_toNat, Nat.add_mod_mod]
  · rw [sum8_append, BitVec.toNat_add]

/-- Settles O29: the rest of the sequence cancels, so the sum changes by what the one byte changes by. -/
theorem checksumDetectsEveryOneByteChange : Obligations.ChecksumDetectsEveryOneByteChange := by
  refine ⟨fun A B x y hne => sum8_middle_inj.not.2 hne, fun A B x j hj => ?_⟩
  rw [← BitVec.twoPow_eq, byte_two_pow]
  refine ⟨sum8_middle_inj.not.2 (xor_twoPow_ne_self hj x), ?_⟩
  rw [sum8_middle, sum8_middle, xor_twoPow]
  split
  · exact .inr (sub_add_eq_add_sub _ _ _)
  · exact .inl (add_right_comm _ _ _)

/-- Settles O24: `CSUM.CLR` does not read ACC, so from the state it leaves it does the same again. -/
theorem csumClrClearsTheAccumulator : Obligations.CsumClrClearsTheAccumulator := by
  refine ⟨fun o => ?_, exec_csumClr, fun s t h => ⟨exec_again_of_not_add (fun _ => nofun) h, ?_⟩⟩
  · exact decode_ok_of_row rfl ((readOperands_ok_iff .csumClr o _).2 rfl)
  · rw [exec_csumClr] at h
    cases h
    rfl

/-- Settles O25: what `CSUM.ADD` writes is the byte of the exact sum, and a byte is a number mod 256. -/
theorem csumAddAddsModulo256 : Obligations.CsumAddAddsModulo256 := by
  refine ⟨fun o hb => ?_, fun b s => ?_⟩
  · exact decode_ok_of_row rfl ((readOperands_ok_iff .csumAdd o _).2 ⟨hb, rfl⟩)
  · rw [byte_mod]
    exact exec_eq_next (.csumAdd b) s

end Sys2Proof.Proofs
end

section
/-! SUPPORT. The statements of 42_frame_encoder.md: the one result of the three encoder commands, from which each
command's own rule follows, and the shape and sum of the frame it holds. -/

namespace Sys2Proof.Laws

open Sys2Proof.Machine Sys2Proof.Claims

/-! ## The encoder commands -/

/-- `ENCODE` by rule R68, with the frame that rules R50 to R56 lay out. -/
theorem resultOf_encodeFrame (p : Params) (k : MessageKind) (id f2 : Byte) (payload : List Byte) :
    resultOf .tx (encodeFrame p k id f2 payload) =
      if 63 < payload.length + p.lenBias k then .err .payloadTooLarge .noInfo
      else .tx (frameOf (kindNumber k) (payload.length + p.lenBias k) id f2 payload) := by
  obtain ⟨hlong, he⟩ | ⟨hfit, he⟩ := encodeFrame_cases p k id f2 payload
  · rw [he, if_pos hlong]; rfl
  · rw [he, if_neg hfit.not_gt, ← frameBytes_eq_frameOf]; rfl

/-- An encoder command answers by the fields its operands name, under every configuration (rules R69 to R71). -/
theorem execWith_encoder {i : Instr} {k : Nat} {id f2 : Byte} {payload : List Byte}
    (hi : encoderFields i = some (k, id, f2, payload)) (p : Params) (s : State) :
    execWith p i s = .next (withRes s (
      if 63 < payload.length + biasOf p k then .err .payloadTooLarge .noInfo
      else .tx (frameOf k (payload.length + biasOf p k) id f2 payload))) := by
  obtain ⟨kind, rfl, hx⟩ := execWith_of_encoderFields hi
  rw [hx, encodeWith, finish_next, resultOf_encodeFrame, biasOf_kindNumber]
  rfl

theorem biasOf_params (k : Nat) : biasOf Config.params k = 0 := by
  simp [biasOf, Config.params]

/-- On this hardware a payload of up to 63 bytes is encoded, its length field its length. -/
theorem exec_encoder_of_fits {i : Instr} {k : Nat} {id f2 : Byte} {payload : List Byte}
    (hi : encoderFields i = some (k, id, f2, payload)) (hfit : payload.length ≤ 63) (s : State) :
    exec i s = .next (withRes s (.tx (frameOf k payload.length id f2 payload))) := by
  rw [exec_eq_execWith, execWith_encoder hi, biasOf_params, Nat.add_zero, if_neg hfit.not_gt]

/-- On this hardware a longer payload is refused. -/
theorem exec_encoder_of_long {i : Instr} {k : Nat} {id f2 : Byte} {payload : List Byte}
    (hi : encoderFields i = some (k, id, f2, payload)) (hlong : 63 < payload.length) (s : State) :
    exec i s = .next (withRes s (.err .payloadTooLarge .noInfo)) := by
  rw [exec_eq_execWith, execWith_encoder hi, biasOf_params, Nat.add_zero, if_pos hlong]

/-! ## The frame -/

theorem encoderFields_kind_lt {i : Instr} {k : Nat} {id f2 : Byte} {payload : List Byte}
    (hi : encoderFields i = some (k, id, f2, payload)) : k < 3 := by
  obtain ⟨kind, rfl, -⟩ := execWith_of_encoderFields hi
  exact kindNumber_lt kind

/-- A length field of six bits leaves room for the kind below it (rule R46). -/
theorem headerByte_toNat {k L : Nat} (hk : k < 3) (hL : L ≤ 63) : (byte (4 * L + k)).toNat = 4 * L + k := by
  rw [BitVec.toNat_ofNat]
  omega

/-- The sum of a frame counts every byte before the checksum twice (rule R72, law 3). -/
theorem sum8_append_sum8 (B : List Byte) : (sum8 (B ++ [sum8 B])).toNat = 2 * (sum8 B).toNat % 256 := by
  rw [sum8_append, sum8_cons, sum8_nil, add_zero, BitVec.toNat_add, two_mul]

end Sys2Proof.Laws

namespace Sys2Proof.Proofs

open Sys2Proof.Machine Sys2Proof.Claims Sys2Proof.Laws

/-- Settles O30: the fields of `ENC.REQ` are its operands. -/
theorem encReqProducesTheRequestFrame : Obligations.EncReqProducesTheRequestFrame :=
  ⟨fun o hid hsub hpay => decode_ok_of_row rfl ((readOperands_ok_iff .encReq o _).2 ⟨⟨hid, hsub, hpay⟩, rfl⟩),
    fun _ _ _ _ => execWith_encoder rfl _,
    fun _ _ _ s hfit => exec_encoder_of_fits rfl hfit s,
    fun _ _ _ s hlong => exec_encoder_of_long rfl hlong s⟩

/-- Settles O31: the fields of `ENC.RSP` are its operands, the error as the byte `error mod 256`. -/
theorem encRspProducesTheResponseFrame : Obligations.EncRspProducesTheResponseFrame :=
  ⟨fun o hid hlo hhi hpay =>
      decode_ok_of_row rfl ((readOperands_ok_iff .encRsp o _).2 ⟨⟨hid, ⟨hlo, hhi⟩, hpay⟩, rfl⟩),
    fun _ _ _ _ => execWith_encoder rfl _,
    fun _ _ _ s hfit => exec_encoder_of_fits rfl hfit s,
    fun _ _ _ s hlong => exec_encoder_of_long rfl hlong s⟩

/-- Settles O32: the fields of `ENC.NTF` are its operands, whatever the event. -/
theorem encNtfProducesTheNotificationFrame : Obligations.EncNtfProducesTheNotificationFrame :=
  ⟨fun o hid hev hpay => decode_ok_of_row rfl ((readOperands_ok_iff .encNtf o _).2 ⟨⟨hid, hev, hpay⟩, rfl⟩),
    fun _ _ _ _ => execWith_encoder rfl _,
    fun _ _ _ s hfit => exec_encoder_of_fits rfl hfit s,
    fun _ _ _ s hlong => exec_encoder_of_long rfl hlong s⟩

/-- Settles O33: the shape is `frameOf`'s layout, the whole-frame sum `sum8_append_sum8`. -/
theorem encoderLaws : Obligations.EncoderLaws := by
  refine ⟨fun p i k id f2 payload s hi => ⟨_, execWith_encoder hi p s, ?_⟩,
    fun i k id f2 payload s hi => ⟨fun h63 => ?_, fun h64 => ?_⟩, fun kind s => ?_⟩
  · by_cases hlong : 63 < payload.length + biasOf p k
    · rw [if_pos hlong]
      exact .inl rfl
    · rw [if_neg hlong]
      refine .inr ⟨_, id :: f2 :: payload, _, rfl, rfl,
        headerByte_toNat (encoderFields_kind_lt hi) (not_lt.1 hlong), rfl, ?_⟩
      rw [← sum8_eq_byte, ← sum8_append_sum8]
      simp [covered]
  · exact ⟨_, exec_encoder_of_fits hi h63.le s⟩
  · exact exec_encoder_of_long hi (by omega) s
  · rw [exec_hdrEnc, if_pos (by decide)]

end Sys2Proof.Proofs
end

section
/-! SUPPORT. The statements of 43_frame_decoder.md: every buffer of 8 bytes or more is a layout, on which the decode is
`decodeResult`; what an accepted frame is, and which check its cut or corrupted copies fail. -/

namespace Sys2Proof.Laws

open Sys2Proof.Machine Sys2Proof.Claims

/-! ## The layout -/

theorem layout_length (h id f2 : Byte) (payload : List Byte) (r0 r1 r2 r3 c : Byte) :
    (layout h id f2 payload r0 r1 r2 r3 c).length = payload.length + 8 := by
  simp [layout]

/-- The checksum byte stands behind the bytes it covers (30_encoding.md rule R55). -/
theorem layout_eq_covered_append (h id f2 : Byte) (payload : List Byte) (r0 r1 r2 r3 c : Byte) :
    layout h id f2 payload r0 r1 r2 r3 c = covered h id f2 payload r0 r1 r2 r3 ++ [c] := by
  simp [layout, covered]

/-- Eight bytes are enough for every field of the layout, the payload taking what they leave (rule R50). -/
theorem exists_layout {B : List Byte} (hB : 8 ≤ B.length) :
    ∃ h id f2 payload r0 r1 r2 r3 c, B = layout h id f2 payload r0 r1 r2 r3 c := by
  obtain _ | ⟨h, _ | ⟨id, _ | ⟨f2, rest⟩⟩⟩ := B
  case cons.cons.cons =>
    have htail : (rest.drop (rest.length - 5)).length = 5 := by
      simp only [List.length_cons, List.length_drop] at hB ⊢
      omega
    match hlast : rest.drop (rest.length - 5), htail with
    | [r0, r1, r2, r3, c], _ =>
      refine ⟨h, id, f2, rest.take (rest.length - 5), r0, r1, r2, r3, c, ?_⟩
      rw [layout, ← hlast, List.take_append_drop]
  all_goals
    simp at hB

/-! ## The decode algorithm -/

/-- Every header byte but those of kind 3 names a kind, and it is the byte's own (rules R47, R48). -/
theorem exists_kind_of_ne_three {h : Byte} (hk : h.toNat % 4 ≠ 3) :
    ∃ k, kindOfBits (unpackKind h) = some k ∧ h.toNat % 4 = kindNumber k := by
  cases hkind : kindOfBits (unpackKind h) with
  | none => exact absurd ((unpackKind_eq_three_iff h).1 ((kindOfBits_eq_none _).1 hkind)) hk
  | some k => exact ⟨k, rfl, by rw [← unpackKind_toNat, (kindOfBits_eq_some _ k).1 hkind, kindBits_toNat]⟩

theorem kindNumber_injective : Function.Injective kindNumber := by
  intro a b h
  have hbits : kindBits a = kindBits b := BitVec.eq_of_toNat_eq (by rw [kindBits_toNat, kindBits_toNat, h])
  have hsome : some a = some b := by rw [← kindOfBits_kindBits a, hbits, kindOfBits_kindBits]
  exact Option.some_inj.1 hsome

theorem bodyOf_eq_bodyFor (k : MessageKind) (f2 : Byte) (payload : List Byte) :
    bodyOf k f2 payload = bodyFor (kindNumber k) f2 payload := by
  cases k <;> rfl

theorem memRead_layout_payload (h id f2 : Byte) (payload : List Byte) (r0 r1 r2 r3 c : Byte)
    (hb : 3 + payload.length ≤ (layout h id f2 payload r0 r1 r2 r3 c).length) :
    memRead (layout h id f2 payload r0 r1 r2 r3 c) 3 payload.length hb = payload := by
  simp [memRead, layout]

theorem memRead_layout_covered (h id f2 : Byte) (payload : List Byte) (r0 r1 r2 r3 c : Byte)
    (hb : 0 + (payload.length + 7) ≤ (layout h id f2 payload r0 r1 r2 r3 c).length) :
    memRead (layout h id f2 payload r0 r1 r2 r3 c) 0 (payload.length + 7) hb = covered h id f2 payload r0 r1 r2 r3 := by
  simp [memRead, layout, covered, List.take_append]

theorem memReadByte_layout_last (h id f2 : Byte) (payload : List Byte) (r0 r1 r2 r3 c : Byte)
    (hb : payload.length + 7 + 1 ≤ (layout h id f2 payload r0 r1 r2 r3 c).length) :
    memReadByte (layout h id f2 payload r0 r1 r2 r3 c) (payload.length + 7) hb = c := by
  simp [memReadByte, layout]

/-- Steps 3 to 5 of rule R73 on a layout, each field read where it stands. -/
theorem decodeBody_layout (p : Params) (k : MessageKind) (h id f2 : Byte) (payload : List Byte) (r0 r1 r2 r3 c : Byte)
    (hn : 8 ≤ (layout h id f2 payload r0 r1 r2 r3 c).length) :
    decodeBody p k (layout h id f2 payload r0 r1 r2 r3 c) hn =
      if h.toNat / 4 < p.lenBias k ∨ h.toNat / 4 - p.lenBias k ≠ payload.length then .error ⟨.lengthMismatch, .noInfo⟩
      else if c ≠ sum8 (covered h id f2 payload r0 r1 r2 r3) then
        .error ⟨.checksumMismatch, .csumPair (sum8 (covered h id f2 payload r0 r1 r2 r3)) c⟩
      else .ok { header := ⟨kindBits k, unpackLength h⟩, id := id, body := bodyOf k f2 payload, checksum := c } := by
  rw [← unpackLength_toNat]
  simp only [decodeBody, minFrame_eq, layout_length, Nat.add_sub_cancel, Nat.add_succ_sub_one, memRead_layout_payload,
    memRead_layout_covered, memReadByte_layout_last]
  rfl

/-- `DECODE` of a layout is rule R73 in its own arithmetic, whatever the hint and the configuration. -/
theorem resultOf_decodeFrame_layout (p : Params) (hint : Option MessageKind) (h id f2 : Byte) (payload : List Byte)
    (r0 r1 r2 r3 c : Byte) :
    resultOf .rx (decodeFrame p hint (layout h id f2 payload r0 r1 r2 r3 c)) =
      decodeResult p (hint.map kindNumber) h id f2 payload r0 r1 r2 r3 c := by
  have hn : 8 ≤ (layout h id f2 payload r0 r1 r2 r3 c).length := by
    rw [layout_length]
    omega
  by_cases hk : h.toNat % 4 = 3
  · rw [decodeResult, if_pos hk]
    exact congrArg _ (decodeFrame_of_kind_three p hint (Nat.le_of_succ_le_succ hn) hk)
  · obtain ⟨k, hkind, hnum⟩ := exists_kind_of_ne_three hk
    have hfirst : kindOfBits (unpackKind (memReadByte (layout h id f2 payload r0 r1 r2 r3 c) 0 (by omega))) = some k :=
      hkind
    have hhint : (hint.map kindNumber ≠ none ∧ hint.map kindNumber ≠ some (kindNumber k)) ↔
        (hint ≠ none ∧ hint ≠ some k) := by
      cases hint <;> simp [kindNumber_injective.eq_iff]
    have hbits : kindBits k = BitVec.ofNat 2 (kindNumber k) := by
      rw [← kindBits_toNat, BitVec.ofNat_toNat, BitVec.setWidth_eq]
    simp only [decodeFrame, dif_pos hn, hfirst, decodeBody_layout, decodeResult, hnum, if_neg (kindNumber_lt k).ne, hhint,
      biasOf_kindNumber, ← hbits, ← unpackLength_eq, ← bodyOf_eq_bodyFor, ← sum8_eq_byte]
    split_ifs <;> rfl

theorem decodeWith_layout (p : Params) (hint : Option MessageKind) (h id f2 : Byte) (payload : List Byte)
    (r0 r1 r2 r3 c : Byte) (s : State) :
    decodeWith p hint (layout h id f2 payload r0 r1 r2 r3 c) s =
      .next (withRes s (decodeResult p (hint.map kindNumber) h id f2 payload r0 r1 r2 r3 c)) := by
  rw [decodeWith, finish_next, resultOf_decodeFrame_layout]
  rfl

/-- A buffer too short for the layout is truncated (rule R73, step 1). -/
theorem decodeWith_of_short (p : Params) (hint : Option MessageKind) {B : List Byte} (hB : B.length < 8) (s : State) :
    decodeWith p hint B s = .next (withRes s (.err .truncatedFrame .noInfo)) := by
  rw [decodeWith, finish_next, decodeFrame, dif_neg hB.not_ge]
  rfl

/-! ## The decoder commands -/

/-- A decoder command answers by its hint and buffer, under every configuration (rules R74 to R77). -/
theorem execWith_decoder {i : Instr} {hint : Option Nat} {h id f2 : Byte} {payload : List Byte} {r0 r1 r2 r3 c : Byte}
    (hi : decoderFields i = some (hint, layout h id f2 payload r0 r1 r2 r3 c)) (p : Params) (s : State) :
    execWith p i s = .next (withRes s (decodeResult p hint h id f2 payload r0 r1 r2 r3 c)) := by
  obtain ⟨kind, rfl, hx⟩ := execWith_of_decoderFields hi
  rw [hx, decodeWith_layout]

theorem execWith_decoder_of_short {i : Instr} {hint : Option Nat} {B : List Byte}
    (hi : decoderFields i = some (hint, B)) (hB : B.length < 8) (p : Params) (s : State) :
    execWith p i s = .next (withRes s (.err .truncatedFrame .noInfo)) := by
  obtain ⟨kind, -, hx⟩ := execWith_of_decoderFields hi
  rw [hx, decodeWith_of_short p kind hB]

theorem exec_decoder_of_short {i : Instr} {hint : Option Nat} {B : List Byte}
    (hi : decoderFields i = some (hint, B)) (hB : B.length < 8) (s : State) :
    exec i s = .next (withRes s (.err .truncatedFrame .noInfo)) :=
  (exec_eq_execWith i s).trans (execWith_decoder_of_short hi hB _ s)

theorem decoderFields_hintedDecoder {k : Nat} (hk : k < 3) (B : List Byte) :
    decoderFields (hintedDecoder k B) = some (some k, B) := by
  interval_cases k <;> rfl

/-! ## What each check finds -/

/-- The header byte names a kind, and its length field is n payload bytes and the bias of that kind (rule R57). -/
abbrev HeaderFits (p : Params) (h : Byte) (n : Nat) : Prop :=
  h.toNat % 4 ≠ 3 ∧ h.toNat / 4 = n + biasOf p (h.toNat % 4)

section
variable {p : Params} {hint : Option Nat} {h id f2 : Byte} {payload : List Byte} {r0 r1 r2 r3 c : Byte}

theorem decodeResult_kindMismatch (hk : h.toNat % 4 ≠ 3) (hnone : hint ≠ none) (hne : hint ≠ some (h.toNat % 4)) :
    decodeResult p hint h id f2 payload r0 r1 r2 r3 c = .err .kindMismatch .noInfo := by
  rw [decodeResult, if_neg hk, if_pos ⟨hnone, hne⟩]

/-- With no hint or the right one, the checks that are left are those of the length and of the sum. -/
theorem decodeResult_of_hint (hk : h.toNat % 4 ≠ 3) (hhint : hint = none ∨ hint = some (h.toNat % 4)) :
    decodeResult p hint h id f2 payload r0 r1 r2 r3 c =
      if ¬ HeaderFits p h payload.length then .err .lengthMismatch .noInfo
      else if c ≠ sum8 (covered h id f2 payload r0 r1 r2 r3) then
        .err .checksumMismatch (.csumPair (sum8 (covered h id f2 payload r0 r1 r2 r3)) c)
      else .rx { header := ⟨BitVec.ofNat 2 (h.toNat % 4), BitVec.ofNat 6 (h.toNat / 4)⟩, id := id,
                 body := bodyFor (h.toNat % 4) f2 payload, checksum := c } := by
  have hagree : ¬ (hint ≠ none ∧ hint ≠ some (h.toNat % 4)) := by tauto
  have hlen : (h.toNat / 4 < biasOf p (h.toNat % 4) ∨ h.toNat / 4 - biasOf p (h.toNat % 4) ≠ payload.length) ↔
      ¬ HeaderFits p h payload.length := by
    rw [HeaderFits]
    omega
  rw [decodeResult, if_neg hk, if_neg hagree]
  exact if_congr hlen rfl rfl

theorem decodeResult_lengthMismatch (hk : h.toNat % 4 ≠ 3) (hhint : hint = none ∨ hint = some (h.toNat % 4))
    (hfit : ¬ HeaderFits p h payload.length) :
    decodeResult p hint h id f2 payload r0 r1 r2 r3 c = .err .lengthMismatch .noInfo := by
  rw [decodeResult_of_hint hk hhint, if_pos hfit]

theorem decodeResult_checksumMismatch (hfit : HeaderFits p h payload.length)
    (hhint : hint = none ∨ hint = some (h.toNat % 4)) (hc : c ≠ sum8 (covered h id f2 payload r0 r1 r2 r3)) :
    decodeResult p hint h id f2 payload r0 r1 r2 r3 c =
      .err .checksumMismatch (.csumPair (sum8 (covered h id f2 payload r0 r1 r2 r3)) c) := by
  rw [decodeResult_of_hint hfit.1 hhint, if_neg (not_not_intro hfit), if_pos hc]

theorem decodeResult_rx (hfit : HeaderFits p h payload.length) (hhint : hint = none ∨ hint = some (h.toNat % 4)) :
    decodeResult p hint h id f2 payload r0 r1 r2 r3 (sum8 (covered h id f2 payload r0 r1 r2 r3)) =
      .rx { header := ⟨BitVec.ofNat 2 (h.toNat % 4), BitVec.ofNat 6 (h.toNat / 4)⟩, id := id,
            body := bodyFor (h.toNat % 4) f2 payload, checksum := sum8 (covered h id f2 payload r0 r1 r2 r3) } := by
  rw [decodeResult_of_hint hfit.1 hhint, if_neg (not_not_intro hfit), if_neg (not_not_intro rfl)]

/-- With no hint a decode finds an unknown kind, or goes by the header byte. -/
theorem decodeResult_none_cases (p : Params) (h id f2 : Byte) (payload : List Byte) (r0 r1 r2 r3 c : Byte) :
    decodeResult p none h id f2 payload r0 r1 r2 r3 c = .err .unknownMessageKind .noInfo ∨
    decodeResult p none h id f2 payload r0 r1 r2 r3 c = .err .lengthMismatch .noInfo ∨
    (∃ info, decodeResult p none h id f2 payload r0 r1 r2 r3 c = .err .checksumMismatch info) ∨
    (HeaderFits p h payload.length ∧ c = sum8 (covered h id f2 payload r0 r1 r2 r3)) := by
  by_cases hk : h.toNat % 4 = 3
  · exact .inl (if_pos hk)
  by_cases hfit : HeaderFits p h payload.length
  · by_cases hc : c = sum8 (covered h id f2 payload r0 r1 r2 r3)
    · exact .inr (.inr (.inr ⟨hfit, hc⟩))
    · exact .inr (.inr (.inl ⟨_, decodeResult_checksumMismatch hfit (.inl rfl) hc⟩))
  · exact .inr (.inl (decodeResult_lengthMismatch hk (.inl rfl) hfit))

theorem decodeResult_eq_rx {fr : DecodedFrame} (hr : decodeResult p none h id f2 payload r0 r1 r2 r3 c = .rx fr) :
    HeaderFits p h payload.length ∧ c = sum8 (covered h id f2 payload r0 r1 r2 r3) := by
  obtain he | he | ⟨info, he⟩ | hok := decodeResult_none_cases p h id f2 payload r0 r1 r2 r3 c
  case inr.inr.inr => exact hok
  all_goals
    rw [he] at hr
    cases hr

theorem decodeResult_ne_kindMismatch (info : ErrInfo) :
    decodeResult p none h id f2 payload r0 r1 r2 r3 c ≠ .err .kindMismatch info := by
  obtain he | he | ⟨info', he⟩ | ⟨hfit, rfl⟩ := decodeResult_none_cases p h id f2 payload r0 r1 r2 r3 c
  case inr.inr.inr =>
    rw [decodeResult_rx hfit (.inl rfl)]
    exact nofun
  all_goals
    rw [he]
    exact nofun

end

/-- A frame whose header byte is built from kind and payload length is accepted without a hint and with its own,
whatever its reserved bytes. -/
theorem execWith_decoder_of_frame {i : Instr} {hint : Option Nat} {k L : Nat} {id f2 : Byte} {payload : List Byte}
    {r0 r1 r2 r3 : Byte}
    (hi : decoderFields i = some (hint, layout (byte (4 * L + k)) id f2 payload r0 r1 r2 r3
      (sum8 (covered (byte (4 * L + k)) id f2 payload r0 r1 r2 r3))))
    (hk : k < 3) (hhint : hint = none ∨ hint = some k) {p : Params} (hL : L = payload.length + biasOf p k)
    (hmax : L ≤ 63) (s : State) :
    execWith p i s = .next (withRes s (.rx
      { header := ⟨BitVec.ofNat 2 k, BitVec.ofNat 6 L⟩, id := id, body := bodyFor k f2 payload,
        checksum := sum8 (covered (byte (4 * L + k)) id f2 payload r0 r1 r2 r3) })) := by
  have hkind : (byte (4 * L + k)).toNat % 4 = k := by
    rw [headerByte_toNat hk hmax]
    omega
  have hlen : (byte (4 * L + k)).toNat / 4 = L := by
    rw [headerByte_toNat hk hmax]
    omega
  have hfit : HeaderFits p (byte (4 * L + k)) payload.length := by
    rw [HeaderFits, hkind, hlen]
    exact ⟨hk.ne, hL⟩
  rw [execWith_decoder hi, decodeResult_rx hfit (by rwa [hkind]), hkind, hlen]

/-- On this hardware the length field is the payload's length. -/
theorem exec_decoder_of_frame {i : Instr} {hint : Option Nat} {k : Nat} {id f2 : Byte} {payload : List Byte}
    {r0 r1 r2 r3 : Byte}
    (hi : decoderFields i = some (hint, layout (byte (4 * payload.length + k)) id f2 payload r0 r1 r2 r3
      (sum8 (covered (byte (4 * payload.length + k)) id f2 payload r0 r1 r2 r3))))
    (hk : k < 3) (hhint : hint = none ∨ hint = some k) (hmax : payload.length ≤ 63) (s : State) :
    exec i s = .next (withRes s (.rx
      { header := ⟨BitVec.ofNat 2 k, BitVec.ofNat 6 payload.length⟩, id := id, body := bodyFor k f2 payload,
        checksum := sum8 (covered (byte (4 * payload.length + k)) id f2 payload r0 r1 r2 r3) })) := by
  rw [exec_eq_execWith, execWith_decoder_of_frame hi hk hhint (by rw [biasOf_params, Nat.add_zero]) hmax]

/-- No decoder takes a header of kind 3, whatever its hint (O22). -/
theorem execWith_decoder_of_kind_three {i : Instr} {hint : Option Nat} {h : Byte} {B : List Byte}
    (hi : decoderFields i = some (hint, h :: B)) (hB : 7 ≤ B.length) (h3 : h.toNat % 4 = 3) (p : Params) (s : State) :
    execWith p i s = .next (withRes s (.err .unknownMessageKind .noInfo)) := by
  obtain ⟨-, hdecoder, -, -⟩ := Proofs.kindThreeNamesNoVariant p
  exact hdecoder i hint h B s hi hB h3

/-- A decoder with a hint reports every header of another kind. -/
theorem execWith_hintedDecoder_kindMismatch {p : Params} {k : Nat} {h : Byte} {B : List Byte} (hk : k < 3)
    (hB : 7 ≤ B.length) (h3 : h.toNat % 4 ≠ 3) (hne : h.toNat % 4 ≠ k) (s : State) :
    execWith p (hintedDecoder k (h :: B)) s = .next (withRes s (.err .kindMismatch .noInfo)) := by
  obtain ⟨h', id, f2, payload, r0, r1, r2, r3, c, hl⟩ := exists_layout (B := h :: B) (Nat.succ_le_succ hB)
  obtain ⟨rfl, -⟩ := List.cons_eq_cons.1 hl
  rw [hl, execWith_decoder (decoderFields_hintedDecoder hk _),
    decodeResult_kindMismatch h3 (Option.some_ne_none k) (fun hsome => hne (Option.some_inj.1 hsome).symm)]

/-- `DEC.ANY` reports a length field that does not fit the buffer, whatever stands behind the header. -/
theorem execWith_decAny_lengthMismatch {p : Params} {h : Byte} {B : List Byte} {n : Nat} (hB : B.length = n + 7)
    (hk : h.toNat % 4 ≠ 3) (hfit : ¬ HeaderFits p h n) (s : State) :
    execWith p (.decAny (h :: B)) s = .next (withRes s (.err .lengthMismatch .noInfo)) := by
  obtain ⟨h', id, f2, payload, r0, r1, r2, r3, c, hl⟩ := exists_layout (B := h :: B) (by simp [hB])
  obtain ⟨rfl, hrest⟩ := List.cons_eq_cons.1 hl
  have hn : payload.length = n := by simpa [hB] using (congrArg List.length hrest).symm
  rw [hl, execWith_decoder rfl, decodeResult_lengthMismatch hk (.inl rfl) (by rwa [hn])]

/-- `DEC.ANY` reports a last byte that is not the sum of the others, once the header fits. -/
theorem execWith_decAny_checksumMismatch {p : Params} {h c : Byte} {A : List Byte} {n : Nat} (hA : A.length = n + 6)
    (hfit : HeaderFits p h n) (hc : c ≠ sum8 (h :: A)) (s : State) :
    execWith p (.decAny (h :: A ++ [c])) s =
      .next (withRes s (.err .checksumMismatch (.csumPair (sum8 (h :: A)) c))) := by
  obtain ⟨h', id, f2, payload, r0, r1, r2, r3, c', hl⟩ := exists_layout (B := h :: A ++ [c]) (by simp [hA])
  obtain ⟨hcov, hlast⟩ := List.append_inj' (hl.trans (layout_eq_covered_append ..)) rfl
  obtain ⟨rfl, hrest⟩ := List.cons_eq_cons.1 hcov
  obtain rfl : c = c' := List.singleton_inj.1 hlast
  have hn : payload.length = n := by simpa [hA] using (congrArg List.length hrest).symm
  rw [hcov] at hc ⊢
  rw [← layout_eq_covered_append, execWith_decoder rfl, decodeResult_checksumMismatch (by rwa [hn]) (.inl rfl) hc]

/-- An accepted frame is a header that fits, the bytes behind it, and the sum of all of these. -/
theorem exists_frame_of_accepted {p : Params} {F : List Byte} (hF : Accepted p F) :
    ∃ h A n, F = h :: A ++ [sum8 (h :: A)] ∧ A.length = n + 6 ∧ HeaderFits p h n := by
  obtain ⟨s, t, fr, he, hr⟩ := hF
  obtain ⟨h, id, f2, payload, r0, r1, r2, r3, c, rfl⟩ := exists_layout (decoder_rx_length rfl he hr).1
  rw [execWith_decoder rfl] at he
  cases he
  obtain ⟨hfit, rfl⟩ := decodeResult_eq_rx hr
  exact ⟨h, _, payload.length, layout_eq_covered_append .., by simp, hfit⟩

theorem accepted_cons {p : Params} {h : Byte} {B : List Byte} (hF : Accepted p (h :: B)) :
    ∃ A n, B = A ++ [sum8 (h :: A)] ∧ A.length = n + 6 ∧ HeaderFits p h n := by
  obtain ⟨h', A, n, hB, hA, hfit⟩ := exists_frame_of_accepted hF
  obtain ⟨rfl, rfl⟩ := List.cons_eq_cons.1 hB
  exact ⟨A, n, rfl, hA, hfit⟩

/-! ## Encoding and decoding again -/

/-- An encoder's second field, read back as its kind's, is the operand it was made of (rules R10, R73). -/
theorem bodyFor_of_encoder {i : Instr} {k : Nat} {id f2 : Byte} {payload : List Byte} {body : Body}
    (hwf : i.wellFormed = true) (hi : encoderFields i = some (k, id, f2, payload)) (hbody : bodyOperand i = some body) :
    bodyFor k f2 payload = body := by
  cases i with
  | encReq _ _ _ | encNtf _ _ _ => cases hi; cases hbody; rfl
  | encRsp id error payload =>
    cases hi
    cases hbody
    obtain ⟨hlo, hhi⟩ := (isI8_iff error).1 hwf
    have herror : signed (byte (error % 256).toNat) = error := by
      rw [← toU8_eq_byte, ← toI8_eq_signed, toI8_toU8 hlo hhi]
    exact congrArg (Body.response · payload) herror
  | _ => cases hi

/-- The encoder command of a decoded frame has the frame's id, second field and payload for its operands. -/
theorem encoderFields_encoder {k : Nat} (hk : k < 3) (header : Header) (id f2 : Byte) (payload : List Byte) (c : Byte) :
    encoderFields (DecodedFrame.encoder ⟨header, id, bodyFor k f2 payload, c⟩) = some (k, id, f2, payload) := by
  have hbyte : byte (signed f2 % 256).toNat = f2 := by rw [← toU8_eq_byte, ← toI8_eq_signed, toU8_toI8]
  interval_cases k
  · rfl
  · simp [bodyFor, DecodedFrame.encoder, encoderFields, hbyte]
  · rfl

theorem headerByte_of_toNat (h : Byte) : byte (4 * (h.toNat / 4) + h.toNat % 4) = h := by
  rw [Nat.div_add_mod, byte, BitVec.ofNat_toNat, BitVec.setWidth_eq]

/-- Encoding the fields of an accepted header gives that header and zero reserved bytes (rule R56). -/
theorem execWith_encoder_of_fits {p : Params} {h : Byte} {payload : List Byte} (hfit : HeaderFits p h payload.length)
    (header : Header) (id f2 c : Byte) (s : State) :
    execWith p (DecodedFrame.encoder ⟨header, id, bodyFor (h.toNat % 4) f2 payload, c⟩) s =
      .next (withRes s (.tx (layout h id f2 payload 0 0 0 0 (sum8 (covered h id f2 payload 0 0 0 0))))) := by
  obtain ⟨hk, hlen⟩ := hfit
  have hlt := h.isLt
  rw [execWith_encoder (encoderFields_encoder (by omega) ..), ← hlen, if_neg (by omega), frameOf, headerByte_of_toNat]
  rfl

/-- Frames with their right sums are the same exactly when their reserved bytes are. -/
theorem layout_reserved_inj {h id f2 : Byte} {payload : List Byte} {q0 q1 q2 q3 r0 r1 r2 r3 : Byte} :
    layout h id f2 payload q0 q1 q2 q3 (sum8 (covered h id f2 payload q0 q1 q2 q3)) =
        layout h id f2 payload r0 r1 r2 r3 (sum8 (covered h id f2 payload r0 r1 r2 r3)) ↔
      [r0, r1, r2, r3] = [q0, q1, q2, q3] := by
  constructor
  · intro heq
    rw [layout_eq_covered_append, layout_eq_covered_append] at heq
    obtain ⟨hcov, -⟩ := List.append_inj' heq rfl
    simpa [covered] using hcov.symm
  · intro heq
    obtain ⟨rfl, rfl, rfl, rfl⟩ : r0 = q0 ∧ r1 = q1 ∧ r2 = q2 ∧ r3 = q3 := by simpa using heq
    rfl

/-! ## A flipped bit of a frame -/

theorem xor_bit_ne_self {j : Nat} (hj : j < 8) (x : Byte) : x ^^^ (1#8 <<< j) ≠ x := by
  rw [← BitVec.twoPow_eq]
  exact xor_twoPow_ne_self hj x

theorem xor_bit_toNat {j : Nat} (hj : j < 8) (x : Byte) : (x ^^^ (1#8 <<< j)).toNat = x.toNat ^^^ 2 ^ j := by
  have hlt : 2 ^ j < 2 ^ 8 := Nat.pow_lt_pow_right (by decide) hj
  rw [← BitVec.twoPow_eq, BitVec.toNat_xor, BitVec.toNat_twoPow, Nat.mod_eq_of_lt hlt]

/-- Bits 2 to 7 of the header are its length field, so flipping one leaves the kind and changes the length. -/
theorem xor_length_bit {j : Nat} (hlo : 2 ≤ j) (hhi : j < 8) (h : Byte) :
    (h ^^^ (1#8 <<< j)).toNat % 4 = h.toNat % 4 ∧ (h ^^^ (1#8 <<< j)).toNat / 4 ≠ h.toNat / 4 := by
  have hlow : (h ^^^ (1#8 <<< j)).toNat % 4 = h.toNat % 4 := by
    have hzero : 2 ^ j % 2 ^ 2 = 0 := Nat.mod_eq_zero_of_dvd (pow_dvd_pow 2 hlo)
    rw [xor_bit_toNat hhi, show 4 = 2 ^ 2 from rfl, Nat.xor_mod_two_pow, hzero, Nat.xor_zero]
  have hne : (h ^^^ (1#8 <<< j)).toNat ≠ h.toNat := fun heq => xor_bit_ne_self hhi h (BitVec.eq_of_toNat_eq heq)
  exact ⟨hlow, by omega⟩

/-- Bits 0 and 1 are its kind, so flipping one leaves the length and changes the kind. -/
theorem xor_kind_bit {j : Nat} (hj : j < 2) (h : Byte) :
    (h ^^^ (1#8 <<< j)).toNat / 4 = h.toNat / 4 ∧ (h ^^^ (1#8 <<< j)).toNat % 4 ≠ h.toNat % 4 := by
  have hj8 : j < 8 := by omega
  have hhigh : (h ^^^ (1#8 <<< j)).toNat / 4 = h.toNat / 4 := by
    have hzero : 2 ^ j / 2 ^ 2 = 0 := Nat.div_eq_of_lt (Nat.pow_lt_pow_right (by decide) hj)
    rw [xor_bit_toNat hj8, show 4 = 2 ^ 2 from rfl, Nat.xor_div_two_pow, hzero, Nat.xor_zero]
  have hne : (h ^^^ (1#8 <<< j)).toNat ≠ h.toNat := fun heq => xor_bit_ne_self hj8 h (BitVec.eq_of_toNat_eq heq)
  exact ⟨hhigh, by omega⟩

theorem flipBit_cons_zero (h : Byte) (B : List Byte) (j : Nat) : flipBit (h :: B) 0 j = (h ^^^ (1#8 <<< j)) :: B := rfl

theorem flipBit_cons_succ (h : Byte) (B : List Byte) (i j : Nat) : flipBit (h :: B) (i + 1) j = h :: flipBit B i j := rfl

theorem flipBit_length (B : List Byte) (i j : Nat) : (flipBit B i j).length = B.length := List.length_set

theorem flipBit_append_of_lt {A : List Byte} {i : Nat} (hi : i < A.length) (B : List Byte) (j : Nat) :
    flipBit (A ++ B) i j = flipBit A i j ++ B := by
  rw [flipBit, List.set_append_left _ _ hi, List.getD_append _ _ _ _ hi, flipBit]

theorem flipBit_append_last (A : List Byte) (c : Byte) (j : Nat) :
    flipBit (A ++ [c]) A.length j = A ++ [c ^^^ (1#8 <<< j)] := by
  simp [flipBit]

/-- A flipped bit always shows in the sum (41_checksum.md rule R67, law 5). -/
theorem sum8_flipBit_ne {j : Nat} (hj : j < 8) {A : List Byte} {i : Nat} (hi : i < A.length) :
    sum8 (flipBit A i j) ≠ sum8 A := by
  induction A generalizing i with
  | nil => cases hi
  | cons a A ih =>
    cases i with
    | zero =>
      rw [flipBit_cons_zero, sum8_cons, sum8_cons, ne_eq, add_left_inj]
      exact xor_bit_ne_self hj a
    | succ i =>
      rw [flipBit_cons_succ, sum8_cons, sum8_cons, ne_eq, add_right_inj]
      exact ih (Nat.lt_of_succ_lt_succ hi)

section
variable {p : Params} {h : Byte} {B : List Byte} {j : Nat}

theorem decAny_of_flipped_length_bit (hF : Accepted p (h :: B)) (hlo : 2 ≤ j) (hhi : j < 8) (s : State) :
    execWith p (.decAny (flipBit (h :: B) 0 j)) s = .next (withRes s (.err .lengthMismatch .noInfo)) := by
  obtain ⟨A, n, rfl, hA, hk, hlen⟩ := accepted_cons hF
  obtain ⟨hkind, hlength⟩ := xor_length_bit hlo hhi h
  rw [flipBit_cons_zero]
  refine execWith_decAny_lengthMismatch (n := n) (by simp [hA]) (by rwa [hkind]) (fun hfit => hlength ?_) s
  rw [hfit.2, hkind, hlen]

/-- The length field now stands for another kind: it fits still when that kind has the same bias, and then the sum has
changed by the header's change. -/
theorem decAny_of_flipped_kind_bit (hF : Accepted p (h :: B)) (hj : j < 2) (s : State) :
    ∃ code info, execWith p (.decAny (flipBit (h :: B) 0 j)) s = .next (withRes s (.err code info)) ∧
      code = (if (h ^^^ (1#8 <<< j)).toNat % 4 = 3 then .unknownMessageKind
        else if biasOf p ((h ^^^ (1#8 <<< j)).toNat % 4) = biasOf p (h.toNat % 4) then .checksumMismatch
        else .lengthMismatch) := by
  obtain ⟨A, n, rfl, hA, hk, hlen⟩ := accepted_cons hF
  obtain ⟨hlength, -⟩ := xor_kind_bit hj h
  rw [flipBit_cons_zero]
  split_ifs with h3 hbias
  · exact ⟨_, _, execWith_decoder_of_kind_three rfl (by simp [hA]) h3 p s, rfl⟩
  · have hsum : sum8 (h :: A) ≠ sum8 ((h ^^^ (1#8 <<< j)) :: A) := by
      rw [sum8_cons, sum8_cons, ne_eq, add_left_inj]
      exact (xor_bit_ne_self (by omega) h).symm
    exact ⟨_, _, execWith_decAny_checksumMismatch hA ⟨h3, by rw [hlength, hbias, hlen]⟩ hsum s, rfl⟩
  · refine ⟨_, _, execWith_decAny_lengthMismatch (n := n) (by simp [hA]) h3 (fun hfit => hbias ?_) s, rfl⟩
    have hlen' := hfit.2
    omega

theorem hintedDecoder_of_flipped_kind_bit (hF : Accepted p (h :: B)) (hj : j < 2) (s : State) :
    execWith p (hintedDecoder (h.toNat % 4) (flipBit (h :: B) 0 j)) s = .next (withRes s (
      .err (if (h ^^^ (1#8 <<< j)).toNat % 4 = 3 then .unknownMessageKind else .kindMismatch) .noInfo)) := by
  obtain ⟨A, n, rfl, hA, hk, -⟩ := accepted_cons hF
  obtain ⟨-, hkind⟩ := xor_kind_bit hj h
  have hlt : h.toNat % 4 < 3 := by omega
  rw [flipBit_cons_zero]
  split_ifs with h3
  · exact execWith_decoder_of_kind_three (decoderFields_hintedDecoder hlt _) (by simp [hA]) h3 p s
  · exact execWith_hintedDecoder_kindMismatch hlt (by simp [hA]) h3 hkind s

/-- Behind the header a flipped bit changes either the sum of the covered bytes or the checksum byte, not both. -/
theorem decAny_of_flipped_later_bit (hF : Accepted p (h :: B)) {i : Nat} (hi : i < B.length) (hj : j < 8) (s : State) :
    ∃ expected received, expected ≠ received ∧ execWith p (.decAny (flipBit (h :: B) (i + 1) j)) s =
      .next (withRes s (.err .checksumMismatch (.csumPair expected received))) := by
  obtain ⟨A, n, rfl, hA, hfit⟩ := accepted_cons hF
  rw [List.length_append, List.length_singleton] at hi
  rw [flipBit_cons_succ]
  obtain hcov | rfl := Nat.lt_succ_iff_lt_or_eq.1 hi
  · have hsum : sum8 (h :: A) ≠ sum8 (h :: flipBit A i j) := by
      rw [sum8_cons, sum8_cons, ne_eq, add_right_inj]
      exact (sum8_flipBit_ne hj hcov).symm
    rw [flipBit_append_of_lt hcov]
    exact ⟨_, _, hsum.symm, execWith_decAny_checksumMismatch ((flipBit_length ..).trans hA) hfit hsum s⟩
  · have hbyte : sum8 (h :: A) ^^^ (1#8 <<< j) ≠ sum8 (h :: A) := xor_bit_ne_self hj _
    rw [flipBit_append_last]
    exact ⟨_, _, hbyte.symm, execWith_decAny_checksumMismatch hA hfit hbyte s⟩

end

end Sys2Proof.Laws

namespace Sys2Proof.Proofs

open Sys2Proof.Machine Sys2Proof.Claims Sys2Proof.Laws

/-- Settles O40: the frame is `frameOf` of the operands, and its second field reads back as the operand. -/
theorem decodeOfEncodedFrameGivesTheFields : Obligations.DecodeOfEncodedFrameGivesTheFields := by
  intro p i k id f2 payload body s t F hwf hi hbody he hr
  have hk := encoderFields_kind_lt hi
  have hmax := (encoder_tx_length hi he hr).2
  rw [execWith_encoder hi, if_neg hmax.not_gt] at he
  cases he
  cases hr
  refine ⟨_, congrArg List.getLast? (layout_eq_covered_append ..) |>.trans List.getLast?_concat, ?_⟩
  rw [← bodyFor_of_encoder hwf hi hbody]
  rintro j (rfl | rfl) u
  · exact execWith_decoder_of_frame rfl hk (.inl rfl) rfl hmax u
  · exact execWith_decoder_of_frame (decoderFields_hintedDecoder hk _) hk (.inr rfl) rfl hmax u

/-- Settles O43: the decoded fields do not depend on the reserved bytes, and the encoder writes zeros there. -/
theorem reservedBytesAreIgnoredAndReencodedAsZero : Obligations.ReservedBytesAreIgnoredAndReencodedAsZero := by
  intro p h id f2 payload r0 r1 r2 r3 c s t fr he hr
  rw [execWith_decoder rfl] at he
  cases he
  obtain ⟨hfit, rfl⟩ := decodeResult_eq_rx hr
  obtain rfl : _ = fr := Result.rx.inj ((decodeResult_rx hfit (.inl rfl)).symm.trans hr)
  refine ⟨fun q0 q1 q2 q3 => ?_, _, execWith_encoder_of_fits hfit .., rfl, layout_reserved_inj⟩
  rw [execWith_decoder rfl, ← sum8_eq_byte, decodeResult_rx hfit (.inl rfl)]

/-- Settles O35: a buffer of 8 bytes or more is a layout, and there `DECODE` is `decodeResult`. -/
theorem decodeChecksRunInTheirOrder : Obligations.DecodeChecksRunInTheirOrder :=
  ⟨fun _ => exists_layout, fun p hint _ s hB => decodeWith_of_short p hint hB s, decodeWith_layout,
    fun _ _ _ => ⟨rfl, rfl, rfl, rfl⟩⟩

/-- Settles O36: `DEC.REQ` is the decode with hint 0. -/
theorem decReqAcceptsRequestFrames : Obligations.DecReqAcceptsRequestFrames :=
  ⟨fun o hbuf => decode_ok_of_row rfl ((readOperands_ok_iff .decReq o _).2 ⟨hbuf, rfl⟩),
    fun _ _ _ _ _ _ _ s hmax => exec_decoder_of_frame (k := 0) rfl (by decide) (.inr rfl) hmax s,
    fun _ s hB => exec_decoder_of_short rfl hB s,
    fun p _ _ _ _ _ _ _ _ _ s => execWith_decoder rfl p s⟩

/-- Settles O37: `DEC.RSP` is the decode with hint 1. -/
theorem decRspAcceptsResponseFrames : Obligations.DecRspAcceptsResponseFrames :=
  ⟨fun o hbuf => decode_ok_of_row rfl ((readOperands_ok_iff .decRsp o _).2 ⟨hbuf, rfl⟩),
    fun _ _ _ _ _ _ _ s hmax => exec_decoder_of_frame (k := 1) rfl (by decide) (.inr rfl) hmax s,
    fun _ s hB => exec_decoder_of_short rfl hB s,
    fun p _ _ _ _ _ _ _ _ _ s => execWith_decoder rfl p s⟩

/-- Settles O38: `DEC.NTF` is the decode with hint 2. -/
theorem decNtfAcceptsNotificationFrames : Obligations.DecNtfAcceptsNotificationFrames :=
  ⟨fun o hbuf => decode_ok_of_row rfl ((readOperands_ok_iff .decNtf o _).2 ⟨hbuf, rfl⟩),
    fun _ _ _ _ _ _ _ s hmax => exec_decoder_of_frame (k := 2) rfl (by decide) (.inr rfl) hmax s,
    fun _ s hB => exec_decoder_of_short rfl hB s,
    fun p _ _ _ _ _ _ _ _ _ s => execWith_decoder rfl p s⟩

/-- Settles O39: `DEC.ANY` is the decode without a hint, so no kind mismatches it. -/
theorem decAnyAcceptsFramesOfEveryKind : Obligations.DecAnyAcceptsFramesOfEveryKind := by
  refine ⟨fun o hbuf => decode_ok_of_row rfl ((readOperands_ok_iff .decAny o _).2 ⟨hbuf, rfl⟩),
    fun _ _ _ _ _ _ _ _ s hk hmax => exec_decoder_of_frame rfl hk (.inl rfl) hmax s,
    fun _ s hB => exec_decoder_of_short rfl hB s,
    fun p _ _ _ _ _ _ _ _ _ s => execWith_decoder rfl p s, fun p B s t info he => ?_⟩
  by_cases hB : 8 ≤ B.length
  · obtain ⟨h, id, f2, payload, r0, r1, r2, r3, c, rfl⟩ := exists_layout hB
    rw [execWith_decoder rfl] at he
    cases he
    exact decodeResult_ne_kindMismatch info
  · rw [execWith_decoder_of_short rfl (not_le.1 hB)] at he
    cases he
    exact nofun

/-- Settles O41: the header stays what it was, and it fits one length only. -/
theorem truncatedFramesAreRejected : Obligations.TruncatedFramesAreRejected := by
  intro p F m s hF
  obtain ⟨h, A, n, rfl, hA, hk, hlen⟩ := exists_frame_of_accepted hF
  refine ⟨fun hm => ?_, fun hlo hhi => ?_⟩
  · exact execWith_decoder_of_short rfl ((List.length_take_le ..).trans_lt hm) p s
  · obtain ⟨m, rfl⟩ := Nat.exists_eq_add_of_le' hlo
    simp only [List.cons_append, List.length_cons, List.length_append, List.length_nil] at hhi
    rw [List.cons_append, List.take_succ_cons]
    refine execWith_decAny_lengthMismatch (n := m) ?_ hk (fun hfit => ?_) s
    · rw [List.length_take, List.length_append, List.length_singleton]
      omega
    · have := hfit.2
      omega

/-- Settles O42: a length bit breaks the length, a kind bit the kind, the length or the sum, any other bit the sum. -/
theorem singleBitErrorsAreDetected : Obligations.SingleBitErrorsAreDetected := by
  refine ⟨fun p h B s hF => ⟨fun j hlo hhi => decAny_of_flipped_length_bit hF hlo hhi s,
    fun j hj => decAny_of_flipped_kind_bit hF hj s, fun j hj => hintedDecoder_of_flipped_kind_bit hF hj s,
    fun i j hpos hi hj => ?_⟩, fun p B c c' s hF hne => ?_⟩
  · obtain ⟨i, rfl⟩ := Nat.exists_eq_add_of_le' hpos
    exact decAny_of_flipped_later_bit hF (Nat.lt_of_succ_lt_succ hi) hj s
  · obtain ⟨h, A, n, hB, hA, hfit⟩ := exists_frame_of_accepted hF
    obtain ⟨rfl, hc⟩ := List.append_inj' hB rfl
    obtain rfl := List.singleton_inj.1 hc
    exact execWith_decAny_checksumMismatch hA hfit hne s

end Sys2Proof.Proofs
end

section
/-! SUPPORT. The statements of 60_exceptions.md: a command by the unit it belongs to, and what the checks of each unit
have found when they raise an error. -/

namespace Sys2Proof.Laws

open Sys2Proof.Machine Sys2Proof.Claims

/-! ## An error leaves the block as it was -/

/-- No command reads RES (10_state.md rule R17). -/
theorem exec_withRes (i : Instr) (s : State) (r : Result) : exec i (withRes s r) = exec i s := by
  rw [exec_eq_next, exec_eq_next]
  rfl

/-- The checksum commands have no error to raise (41_checksum.md rules R64 to R66). -/
theorem not_checksum_of_error {p : Params} {i : Instr} {s t : State} {code : ErrorCode} {info : ErrInfo}
    (he : execWith p i s = .next t) (hr : t.res = .err code info) : isChecksum i = false := by
  rw [execWith_eq_next] at he
  cases he
  cases i with
  | csumClr | csumAdd _ | csumBuf _ => cases hr
  | _ => rfl

/-- An error is all that a command which raises it writes (60_exceptions.md rule R84). -/
theorem eq_withRes_of_error {p : Params} {i : Instr} {s t : State} {code : ErrorCode} {info : ErrInfo}
    (he : execWith p i s = .next t) (hr : t.res = .err code info) : t = withRes s (.err code info) := by
  have hi := not_checksum_of_error he hr
  rw [execWith_eq_next, writtenAcc_of_not_checksum hi] at he
  cases he
  exact congrArg (withRes s) hr

/-! ## What each unit's checks have found -/

/-- A command belongs to one of the four units, where a frame command is known by its operands, or is illegal
(30_encoding.md rules R40, R42 and R43). -/
theorem unit_cases (i : Instr) :
    (∃ kind len, i = .hdrEnc kind len) ∨ (∃ h, i = .hdrDec h) ∨
    (∃ k id f2 payload, encoderFields i = some (k, id, f2, payload)) ∨
    (∃ hint B, decoderFields i = some (hint, B)) ∨ isChecksum i = true ∨ ∃ c, i = .illegal c := by
  cases i with
  | hdrEnc kind len => exact .inl ⟨kind, len, rfl⟩
  | hdrDec h => exact .inr (.inl ⟨h, rfl⟩)
  | encReq _ _ _ | encRsp _ _ _ | encNtf _ _ _ => exact .inr (.inr (.inl ⟨_, _, _, _, rfl⟩))
  | decReq _ | decRsp _ | decNtf _ | decAny _ => exact .inr (.inr (.inr (.inl ⟨_, _, rfl⟩)))
  | csumClr | csumAdd _ | csumBuf _ => exact .inr (.inr (.inr (.inr (.inl rfl))))
  | illegal c => exact .inr (.inr (.inr (.inr (.inr ⟨c, rfl⟩))))

/-- A command has one answer, so what is known to stand in RES after it is what does. -/
theorem res_eq_of_execWith {p : Params} {i : Instr} {s t : State} {r : Result} (he : execWith p i s = .next t)
    (hx : execWith p i s = .next (withRes s r)) : t.res = r := by
  rw [hx] at he
  cases he
  rfl

/-- The errors of a decode on a layout, each with what its check found (43_frame_decoder.md rules R73 and R78). -/
theorem decodeResult_eq_err {p : Params} {hint : Option Nat} {h id f2 : Byte} {payload : List Byte}
    {r0 r1 r2 r3 c : Byte} {code : ErrorCode} {info : ErrInfo}
    (hr : decodeResult p hint h id f2 payload r0 r1 r2 r3 c = .err code info) :
    (code = .unknownMessageKind ∧ info = .noInfo ∧ h.toNat % 4 = 3) ∨
    (code = .kindMismatch ∧ info = .noInfo ∧ h.toNat % 4 < 3 ∧ ∃ k, hint = some k ∧ h.toNat % 4 ≠ k) ∨
    (code = .lengthMismatch ∧ info = .noInfo ∧
      (h.toNat / 4 < biasOf p (h.toNat % 4) ∨ h.toNat / 4 - biasOf p (h.toNat % 4) ≠ payload.length)) ∨
    (code = .checksumMismatch ∧ info = .csumPair (sum8 (covered h id f2 payload r0 r1 r2 r3)) c ∧
      c ≠ sum8 (covered h id f2 payload r0 r1 r2 r3)) := by
  unfold decodeResult at hr
  dsimp only at hr
  split_ifs at hr with hthree hhint hlen hsum <;> cases hr
  · exact .inl ⟨rfl, rfl, hthree⟩
  · obtain ⟨k, rfl⟩ := Option.ne_none_iff_exists'.1 hhint.1
    exact .inr (.inl ⟨rfl, rfl, by omega, k, rfl, fun heq => hhint.2 (congrArg some heq.symm)⟩)
  · exact .inr (.inr (.inl ⟨rfl, rfl, hlen⟩))
  · exact .inr (.inr (.inr ⟨rfl, rfl, hsum⟩))

end Sys2Proof.Laws

namespace Sys2Proof.Proofs

open Sys2Proof.Machine Sys2Proof.Claims Sys2Proof.Laws

/-- Settles O15: an error is the one thing written, and the next command does not read it. -/
theorem failedCommandsChangeOnlyRes : Obligations.FailedCommandsChangeOnlyRes := by
  intro i s t code info h hr
  rw [exec_eq_execWith] at h
  obtain rfl := eq_withRes_of_error h hr
  exact ⟨rfl, fun j => exec_withRes j s _⟩

/-- Settles O18, unit by unit: each of a unit's checks that fails gives the cause of the error it raises. -/
theorem errorsHaveTheirStatedCauses : Obligations.ErrorsHaveTheirStatedCauses := by
  intro p i s t code info he hr
  obtain ⟨kind, len, rfl⟩ | ⟨h, rfl⟩ | ⟨k, id, f2, payload, hi⟩ | ⟨hint, B, hi⟩ | hi | ⟨c, rfl⟩ := unit_cases i
  · rw [res_eq_of_execWith he (execWith_hdrEnc p kind len s)] at hr
    split_ifs at hr with hlong hbad <;> cases hr
    · exact ⟨rfl, kind, len, rfl, hlong⟩
    · obtain rfl : kind = 3 := BitVec.eq_of_toNat_eq hbad.1
      exact ⟨rfl, .inl ⟨hbad.2, len, rfl⟩⟩
  · rw [res_eq_of_execWith he (execWith_hdrDec p h s)] at hr
    split_ifs at hr with hbad
    cases hr
    exact ⟨rfl, .inr (.inl ⟨hbad.2, h, rfl, hbad.1⟩)⟩
  · rw [res_eq_of_execWith he (execWith_encoder hi p s)] at hr
    split_ifs at hr with hlong
    cases hr
    exact ⟨rfl, k, id, f2, payload, hi, hlong⟩
  · by_cases hB : 8 ≤ B.length
    · obtain ⟨h, id, f2, payload, r0, r1, r2, r3, c, rfl⟩ := exists_layout hB
      rw [res_eq_of_execWith he (execWith_decoder hi p s)] at hr
      have htail : 7 ≤ (id :: f2 :: (payload ++ [r0, r1, r2, r3, c])).length := Nat.le_of_succ_le_succ hB
      obtain ⟨rfl, rfl, hthree⟩ | ⟨rfl, rfl, hlt, k, rfl, hne⟩ | ⟨rfl, rfl, hlen⟩ | ⟨rfl, rfl, hsum⟩ :=
        decodeResult_eq_err hr
      · exact ⟨rfl, .inr (.inr ⟨hint, h, _, hi, htail, hthree⟩)⟩
      · exact ⟨rfl, k, h, _, hi, htail, hlt, hne⟩
      · exact ⟨rfl, hint, h, _, hi, htail, by simpa using hlen⟩
      · rw [layout_eq_covered_append] at hi
        exact ⟨hint, _, c, hi, by simp [covered], hsum, rfl⟩
    · rw [res_eq_of_execWith he (execWith_decoder_of_short hi (not_le.1 hB) p s)] at hr
      cases hr
      exact ⟨rfl, hint, B, hi, not_le.1 hB⟩
  · cases hi.symm.trans (not_checksum_of_error he hr)
  · cases he
    cases hr
    exact ⟨rfl, c, rfl⟩

end Sys2Proof.Proofs
end

section
/-! SUPPORT. The statements of 70_reset_and_hazards.md: the reset state and the reset event, which commands read ACC, and
a frame with bytes behind it. -/

namespace Sys2Proof.Laws

open Sys2Proof.Machine Sys2Proof.Claims

/-! ## What reads ACC -/

/-- `CSUM.CLR` and `CSUM.BUF` set ACC without reading it (rule R95). -/
theorem writtenAcc_of_checksum_of_not_add {i : Instr} (hi : ∀ b, i ≠ .csumAdd b) (hsum : isChecksum i = true)
    (acc acc' : Byte) : writtenAcc i acc = writtenAcc i acc' := by
  cases i with
  | csumAdd b => exact absurd rfl (hi b)
  | csumClr | csumBuf _ => rfl
  | _ => cases hsum

theorem exec_next_res {i : Instr} {s t : State} (h : exec i s = .next t) :
    t.res = writtenRes Config.params i s.acc := by
  rw [exec_eq_next] at h
  cases h
  rfl

/-! ## Bytes behind a frame -/

/-- The header of an accepted frame fits the frame's own length, and therefore not that of a longer buffer (rules R57,
R98). -/
theorem decAny_of_accepted_append {p : Params} {F G : List Byte} (hF : Accepted p F) (hG : G ≠ []) (s : State) :
    execWith p (.decAny (F ++ G)) s = .next (withRes s (.err .lengthMismatch .noInfo)) := by
  obtain ⟨h, A, n, rfl, hA, hkind, hlen⟩ := exists_frame_of_accepted hF
  have hpos : 0 < G.length := List.length_pos_iff.2 hG
  have hlong : (A ++ [sum8 (h :: A)] ++ G).length = n + G.length + 7 := by
    simp only [List.length_append, List.length_singleton, hA]
    omega
  have hfit : ¬ HeaderFits p h (n + G.length) := fun hfit => by
    have hlen' := hfit.2
    omega
  exact execWith_decAny_lengthMismatch hlong hkind hfit s

/-! ## The reset state -/

/-- With RES NONE and ACC 0 the invariant asks only that the host keeps its duty of rule R14. -/
theorem blockInv_reset {es : List HostEvent} (hes : es.all wellTypedEvent = true) :
    BlockInv (State.reset.setPending es) :=
  ⟨rfl, hes⟩

end Sys2Proof.Laws

namespace Sys2Proof.Proofs

open Sys2Proof.Machine Sys2Proof.Claims Sys2Proof.Laws

/-- Settles O16: what a command writes is a function of its operands and ACC, on which only that of `CSUM.ADD` depends,
by an addition that cancels; from reset the sum starts at 0. -/
theorem nothingNeedsInitialising : Obligations.NothingNeedsInitialising := by
  refine ⟨fun i s s' t t' hi ht ht' => ⟨?_, fun hsum => ?_⟩, fun b s s' t t' ht ht' => ?_, fun B => ?_⟩
  · rw [exec_next_res ht, exec_next_res ht', writtenRes_of_not_add _ hi s.acc s'.acc]
  · obtain ⟨-, hacc, -⟩ := exec_next_cases ht
    obtain ⟨-, hacc', -⟩ := exec_next_cases ht'
    rw [hacc, hacc', writtenAcc_of_checksum_of_not_add hi hsum s.acc s'.acc]
  · rw [exec_csumAdd_acc ht, exec_csumAdd_acc ht', add_left_inj]
  · obtain ⟨t, hall, hacc⟩ := execAll_csumAdd_acc B State.reset
    exact ⟨t, hall, hacc.trans (zero_add _)⟩

/-- Settles O44: the header fits one length only. -/
theorem concatenatedFramesAreNotReframed : Obligations.ConcatenatedFramesAreNotReframed :=
  fun _ _ _ s hF hG => decAny_of_accepted_append hF hG s

/-- Settles O11: the reset values by evaluation, the reset event by `step_of_reset`; every command's result is one of
its own (O14). -/
theorem resetEventSetsTheWholeState : Obligations.ResetEventSetsTheWholeState := by
  have hstatus : statusOf .none = 0 := by decide
  refine ⟨⟨rfl, rfl, hstatus⟩, fun s rest hp => ?_, fun i s t h => ?_, exec_csumClr⟩
  · exact ⟨_, step_of_reset hp, rfl, rfl, hstatus, rfl⟩
  · rw [exec_next_res h]
    exact writtenRes_ne_none _ _ _

/-- Settles O51: the reset state itself is the one with no input issued. -/
theorem invariantHoldsAtReset : Obligations.InvariantHoldsAtReset :=
  ⟨blockInv_reset (es := []) rfl, fun _ => blockInv_reset⟩

end Sys2Proof.Proofs
end
